-- ==== Sys2Proof/Word.lean ====
section
/-! DEFINITION. Bytes and byte strings of a fixed length (00_scope.md R8): the only data the core has. -/

namespace Sys2Proof

/-- A byte, 8 unsigned bits; bit 0 is the least significant (00_scope.md R8, R10). -/
abbrev Byte := BitVec 8

/-- A frame: a finite byte string with a known end, byte 0 first (20_memory.md R50, R52). -/
abbrev Frame := List Byte

/-- A byte string of length `n` (00_scope.md R8). The length is part of the value, so that a register
always has exactly its length (10_state.md R23). -/
structure ByteString (n : Nat) where
  bytes : List Byte
  len   : bytes.length = n
  deriving DecidableEq, Repr

/-- `X[i]`. Every use in this model has `i < n`; the default is never read. -/
def ByteString.byte {n : Nat} (x : ByteString n) (i : Nat) : Byte := x.bytes.getD i 0

/-- The byte string `Y` of length `n` with `Y[i] = f i`. -/
def ByteString.tabulate (n : Nat) (f : Nat → Byte) : ByteString n :=
  ⟨(List.range n).map f, by simp⟩

/-- A 16-byte string: a key, a cipher block, OP, OPc, RAND. -/
abbrev Block := ByteString 16

end Sys2Proof
end

