-- ==== Sys2Proof/Config.lean ====
section
/-! DEFINITION. The fixed parameters of the core (00_scope.md R7) and the type of its one open
parameter, the cipher primitive at the binding (93_implementation_defined.md U1, U2, U8). -/

namespace Sys2Proof

/-- Required operand lengths in bytes (00_scope.md R7). -/
def Config.keyLen : Nat := 16
def Config.opLen : Nat := 16
def Config.opcLen : Nat := 16
def Config.randLen : Nat := 16
def Config.sqnLen : Nat := 6
def Config.amfLen : Nat := 2

/-- Result lengths in bytes (00_scope.md R7). `resLen` is fixed at 8 (90_conflicts.md C2). -/
def Config.macLen : Nat := 8
def Config.resLen : Nat := 8
def Config.ckLen : Nat := 16
def Config.ikLen : Nat := 16
def Config.akLen : Nat := 6

/-- One `Encrypt` request at the cipher binding (40_aes_binding.md R100, R105). -/
structure Request where
  key   : Block
  block : Block
  deriving DecidableEq, Repr

/-- What the primitive does with a request: 16 bytes, the signal `CipherError` (40_aes_binding.md R102),
or no answer ever (R107; 93_implementation_defined.md U8). -/
inductive CipherAnswer where
  | block (b : Block)
  | cipherError
  | noAnswer
  deriving DecidableEq, Repr

/-- One row of a tabulated primitive. -/
structure AnswerRow where
  request : Request
  answer  : CipherAnswer
  deriving DecidableEq, Repr

/-- The primitive at the binding, the model's parameter `Encrypt` as plain data (log 2): AES-128 of annex
A (40_aes_binding.md R116), or any other function of the request, given by its answers to the finitely
many requests of a run; a request the table does not list is never answered (log 17). -/
inductive Primitive where
  | aes128
  | tabulated (rows : List AnswerRow)
  deriving DecidableEq, Repr

end Sys2Proof
end

