-- ==== Sys2Proof/Syntax.lean ====
section
/-! DEFINITION. The commands of CMDSET-1 (30_encoding.md R73), their opcodes, and the six statuses
(60_exceptions.md R211). -/

namespace Sys2Proof

/-- The 14 opcodes of CMDSET-1, by mnemonic (30_encoding.md R73). -/
inductive Opcode where
  | computeOpc | newCtxOp | newCtxOpc | setSqn | setAmf | discard
  | f1 | f1star | f2 | f3 | f4 | f5 | f5star | f2345
  deriving DecidableEq, Repr

/-- A command with its operand fields, in the order of 30_encoding.md R73. An operand is the byte string its
field carries: as R80 has it, an operand of the wrong length is written as it is. -/
inductive Instr where
  /-- `COMPUTE_OPC OP K` (41_opc_derivation.md R121). -/
  | computeOpc (op k : List Byte)
  /-- `NEW_CTX_OP K OP RAND SQN AMF` (46_context_commands.md R190). -/
  | newCtxOp (k op rand sqn amf : List Byte)
  /-- `NEW_CTX_OPC K OPc RAND SQN AMF` (46_context_commands.md R191). -/
  | newCtxOpc (k opc rand sqn amf : List Byte)
  /-- `SET_SQN SQN` (46_context_commands.md R192). -/
  | setSqn (sqn : List Byte)
  /-- `SET_AMF AMF` (46_context_commands.md R193). -/
  | setAmf (amf : List Byte)
  /-- `DISCARD` (46_context_commands.md R194). -/
  | discard
  /-- `F1` (43_f1_f1star.md R151). -/
  | f1
  /-- `F1STAR` (43_f1_f1star.md R152). -/
  | f1star
  /-- `F2` (44_f2345.md R163). -/
  | f2
  /-- `F3` (44_f2345.md R164). -/
  | f3
  /-- `F4` (44_f2345.md R165). -/
  | f4
  /-- `F5` (44_f2345.md R166). -/
  | f5
  /-- `F5STAR` (45_f5star.md R181). -/
  | f5star
  /-- `F2345` (44_f2345.md R167). -/
  | f2345
  deriving DecidableEq, Repr

/-- The six statuses a response begins with (60_exceptions.md R211). -/
inductive Status where
  | ok | errLength | errCipher | errOpcode | errFrame | errNoContext
  deriving DecidableEq, Repr

end Sys2Proof
end

