-- ==== Sys2Proof/WellFormed.lean ====
section
/-! DEFINITION. A command is well formed when every operand has its required length (00_scope.md R7,
10_state.md R23, 30_encoding.md R73). -/

namespace Sys2Proof

def Instr.wellFormed : Instr → Bool
  | .computeOpc op k => op.length == Config.opLen && k.length == Config.keyLen
  | .newCtxOp k op rand sqn amf =>
      k.length == Config.keyLen && op.length == Config.opLen && rand.length == Config.randLen &&
      sqn.length == Config.sqnLen && amf.length == Config.amfLen
  | .newCtxOpc k opc rand sqn amf =>
      k.length == Config.keyLen && opc.length == Config.opcLen && rand.length == Config.randLen &&
      sqn.length == Config.sqnLen && amf.length == Config.amfLen
  | .setSqn sqn => sqn.length == Config.sqnLen
  | .setAmf amf => amf.length == Config.amfLen
  | .discard => true
  | .f1 => true
  | .f1star => true
  | .f2 => true
  | .f3 => true
  | .f4 => true
  | .f5 => true
  | .f5star => true
  | .f2345 => true

end Sys2Proof
end

