-- ==== Sys2Proof/Decode.lean ====
section
/-! DEFINITION. CMDSET-1 as bytes (30_encoding.md): the opcode map, the total decoder of R76, the encoder,
response frames (R78) and how an opcode-table word becomes a frame (log 10). -/

namespace Sys2Proof

/-- The opcode byte (30_encoding.md R73). -/
def Opcode.byte : Opcode → Byte
  | .computeOpc => 0x01#8
  | .newCtxOp => 0x02#8
  | .newCtxOpc => 0x03#8
  | .setSqn => 0x04#8
  | .setAmf => 0x05#8
  | .discard => 0x06#8
  | .f1 => 0x10#8
  | .f1star => 0x11#8
  | .f2 => 0x12#8
  | .f3 => 0x13#8
  | .f4 => 0x14#8
  | .f5 => 0x15#8
  | .f5star => 0x16#8
  | .f2345 => 0x17#8

/-- All opcodes, in the order of the table of 30_encoding.md R73. -/
def Opcode.all : List Opcode :=
  [.computeOpc, .newCtxOp, .newCtxOpc, .setSqn, .setAmf, .discard,
   .f1, .f1star, .f2, .f3, .f4, .f5, .f5star, .f2345]

/-- The opcode a byte stands for: all 8 bits are compared, every other byte is reserved (30_encoding.md R73,
R75). -/
def Opcode.ofByte? (b : Byte) : Option Opcode := Opcode.all.find? (fun o => o.byte == b)

/-- The function select FSEL: bits 2..0 of the opcode byte (30_encoding.md R74). -/
def Opcode.fsel (o : Opcode) : BitVec 3 := o.byte.extractLsb' 0 3

/-- The required `LEN` of each operand field, in order (30_encoding.md R73). -/
def Opcode.operandLens : Opcode → List Nat
  | .computeOpc => [16, 16]
  | .newCtxOp => [16, 16, 16, 6, 2]
  | .newCtxOpc => [16, 16, 16, 6, 2]
  | .setSqn => [6]
  | .setAmf => [2]
  | .discard => []
  | .f1 => []
  | .f1star => []
  | .f2 => []
  | .f3 => []
  | .f4 => []
  | .f5 => []
  | .f5star => []
  | .f2345 => []

/-- The length of each response field on `OK`, in order (30_encoding.md R73, R79). -/
def Opcode.resultLens : Opcode → List Nat
  | .computeOpc => [16]
  | .newCtxOp => []
  | .newCtxOpc => []
  | .setSqn => []
  | .setAmf => []
  | .discard => []
  | .f1 => [8]
  | .f1star => [8]
  | .f2 => [8]
  | .f3 => [16]
  | .f4 => [16]
  | .f5 => [6]
  | .f5star => [6]
  | .f2345 => [8, 16, 16, 6]

/-- The opcode of a command. -/
def Instr.opcode : Instr → Opcode
  | .computeOpc _ _ => .computeOpc
  | .newCtxOp _ _ _ _ _ => .newCtxOp
  | .newCtxOpc _ _ _ _ _ => .newCtxOpc
  | .setSqn _ => .setSqn
  | .setAmf _ => .setAmf
  | .discard => .discard
  | .f1 => .f1
  | .f1star => .f1star
  | .f2 => .f2
  | .f3 => .f3
  | .f4 => .f4
  | .f5 => .f5
  | .f5star => .f5star
  | .f2345 => .f2345

/-- The operand values of a command, in field order. -/
def Instr.operands : Instr → List (List Byte)
  | .computeOpc op k => [op, k]
  | .newCtxOp k op rand sqn amf => [k, op, rand, sqn, amf]
  | .newCtxOpc k opc rand sqn amf => [k, opc, rand, sqn, amf]
  | .setSqn sqn => [sqn]
  | .setAmf amf => [amf]
  | .discard => []
  | .f1 => []
  | .f1star => []
  | .f2 => []
  | .f3 => []
  | .f4 => []
  | .f5 => []
  | .f5star => []
  | .f2345 => []

/-- The command of an opcode and its field values; none for a wrong number of fields. -/
def Instr.ofParts? : Opcode → List (List Byte) → Option Instr
  | .computeOpc, [op, k] => some (.computeOpc op k)
  | .newCtxOp, [k, op, rand, sqn, amf] => some (.newCtxOp k op rand sqn amf)
  | .newCtxOpc, [k, opc, rand, sqn, amf] => some (.newCtxOpc k opc rand sqn amf)
  | .setSqn, [sqn] => some (.setSqn sqn)
  | .setAmf, [amf] => some (.setAmf amf)
  | .discard, [] => some .discard
  | .f1, [] => some .f1
  | .f1star, [] => some .f1star
  | .f2, [] => some .f2
  | .f3, [] => some .f3
  | .f4, [] => some .f4
  | .f5, [] => some .f5
  | .f5star, [] => some .f5star
  | .f2345, [] => some .f2345
  | _, _ => none

/-- Walks `n` fields with the `LEN` bytes found in the frame; none when a `LEN` byte is missing, data run
past the end, or bytes are left over (30_encoding.md R71, R72, R76 step 3). -/
def splitFields : Nat → List Byte → Option (List (List Byte))
  | 0, [] => some []
  | 0, _ :: _ => none
  | _ + 1, [] => none
  | n + 1, l :: rest =>
    if l.toNat ≤ rest.length then
      (splitFields n (rest.drop l.toNat)).map (fun fs => rest.take l.toNat :: fs)
    else none

/-- The decoder of 30_encoding.md R76: total, the checks in its order, stopping at the first that fails. -/
def decode (f : Frame) : Except Status Instr :=
  match f with
  | [] => .error .errFrame
  | b :: rest =>
    match Opcode.ofByte? b with
    | none => .error .errOpcode
    | some o =>
      match splitFields o.operandLens.length rest with
      | none => .error .errFrame
      | some fs =>
        match Instr.ofParts? o fs with
        | none => .error .errFrame
        | some i => if fs.map List.length = o.operandLens then .ok i else .error .errLength

/-- A field: one `LEN` byte and the data bytes (30_encoding.md R71). -/
def field (d : List Byte) : List Byte := BitVec.ofNat 8 d.length :: d

/-- The frame a command assembles to (30_encoding.md R70, R73, R80). -/
def encode (i : Instr) : Frame := i.opcode.byte :: i.operands.flatMap field

/-- The status byte (60_exceptions.md R211). -/
def Status.byte : Status → Byte
  | .ok => 0x00#8
  | .errLength => 0x01#8
  | .errCipher => 0x02#8
  | .errOpcode => 0x03#8
  | .errFrame => 0x04#8
  | .errNoContext => 0x05#8

/-- All statuses. -/
def Status.all : List Status := [.ok, .errLength, .errCipher, .errOpcode, .errFrame, .errNoContext]

/-- The response frame of a successful command: `00`, then its fields (30_encoding.md R78). -/
def okFrame (fields : List (List Byte)) : Frame := Status.ok.byte :: fields.flatMap field

/-- The response frame of an error: the single status byte (30_encoding.md R78, 60_exceptions.md R218). -/
def errorFrame (e : Status) : Frame := [e.byte]

/-- What a host reads from a response to a command with `n` result fields: the status and, on `OK`, the
fields (30_encoding.md R78); none if the bytes are no such response. -/
def readResponse (n : Nat) (f : Frame) : Option (Status × List (List Byte)) :=
  match f with
  | [] => none
  | b :: rest =>
    match Status.all.find? (fun s => s.byte == b) with
    | none => none
    | some .ok => (splitFields n rest).map (fun fs => (.ok, fs))
    | some e => if rest = [] then some (e, []) else none

/-- The bytes of an opcode-table word, the first byte in its least significant bits. -/
def tableBytes (nbits w : Nat) : List Byte :=
  (List.range (nbits / 8)).map (fun k => BitVec.ofNat 8 (w >>> (8 * k)))

/-- A command of opcode `o` whose operands are all zero, each under its required `LEN`. -/
def zeroOperandFrame (o : Opcode) : Frame :=
  o.byte :: o.operandLens.flatMap (fun n => field (List.replicate n 0))

/-- The frame of an opcode-table word (log 10): the bytes the word gives, completed, where its opcode has
operands the word does not reach, by operands of zeros under their required `LEN` bytes. -/
def tableFrame (nbits w : Nat) : Frame :=
  let given := tableBytes nbits w
  match given with
  | [] => []
  | b :: _ =>
    match Opcode.ofByte? b with
    | none => given
    | some o => given ++ (zeroOperandFrame o).drop given.length

/-- The instruction the decoder reads from an opcode-table word. -/
def decodeTableWord (nbits w : Nat) : Option Instr :=
  match decode (tableFrame nbits w) with
  | .ok i => some i
  | .error _ => none

end Sys2Proof
end

