-- ==== Sys2Proof/Machine/State.lean ====
section
/-! DEFINITION. The state of the core and its environment's ports (10_state.md, 20_memory.md R50), the
reasons a step can stop, and the reset state (10_state.md R34). -/

namespace Sys2Proof.Machine

/-- The five context registers (10_state.md R21). -/
structure Context where
  k    : Block
  opc  : Block
  rand : Block
  sqn  : ByteString 6
  amf  : ByteString 2
  deriving DecidableEq, Repr

/-- The one context slot (10_state.md R29, R35, 46_context_commands.md R195). `noContext` is `CTX_VALID = 0`:
the five registers hold no value (R34, log 1). `held` is `CTX_VALID = 1`. -/
inductive ContextSlot where
  | noContext
  | held (ctx : Context)
  deriving DecidableEq, Repr

/-- What the host does next (00_scope.md R14, log 4). -/
inductive HostEvent where
  /-- It sends a command frame (20_memory.md R50). -/
  | frame (f : Frame)
  /-- It asserts reset while no command runs (70_reset_and_hazards.md R240). -/
  | reset
  /-- It sends a frame and asserts reset while the command runs, when at most `issued` of the command's
  `Encrypt` requests have been made (70_reset_and_hazards.md R241, log 6). -/
  | frameThenReset (f : Frame) (issued : Nat)
  deriving DecidableEq, Repr

/-- Why the machine stops. -/
inductive Fault where
  /-- Raised by a command whose `Encrypt` request the primitive never answers: the core is stuck inside
  the command (40_aes_binding.md R107, 93_implementation_defined.md U8). `issued` is the command's binding
  trace up to and including that request. Safe: nothing is claimed of the core after it. -/
  | primitiveSilent (issued : List Request)
  deriving DecidableEq, Repr

/-- Why an instruction has no meaning. -/
inductive Refusal where
  /-- Raised by `exec` alone, for an instruction without a meaning (this model has none). Safe. -/
  | notModelled (mnemonic : String)
  deriving DecidableEq, Repr

structure State where
  /-- `CTX_VALID` and the five context registers (10_state.md R21, R29). -/
  slot : ContextSlot
  /-- What the host does, next event first (20_memory.md R56, log 4). -/
  commandPort : List HostEvent
  /-- The response frames emitted so far, oldest first (20_memory.md R50, R56, log 5). -/
  responsePort : List Frame
  /-- The `Encrypt` requests issued so far, oldest first (40_aes_binding.md R105, log 5). -/
  bindingTrace : List Request
  /-- The model's own field: which function the cipher primitive is (93_implementation_defined.md U1, log 2). -/
  primitive : Primitive
  deriving DecidableEq, Repr

/-- The reset state (10_state.md R34): no context, nothing pending on any interface. The primitive is
AES-128 of annex A (log 2). -/
def State.reset : State :=
  { slot := .noContext, commandPort := [], responsePort := [], bindingTrace := [], primitive := .aes128 }

end Sys2Proof.Machine
end

