-- ==== Sys2Proof/Machine/Operands.lean ====
section
/-! DEFINITION. The operations on byte strings (00_scope.md R9, R11, 42_temp_and_transform.md R133, R135,
43_f1_f1star.md R150). -/

namespace Sys2Proof.Machine

/-- `A xor B`, byte by byte (00_scope.md R11). -/
def bxor {n : Nat} (a b : ByteString n) : ByteString n :=
  .tabulate n (fun i => a.byte i ^^^ b.byte i)

/-- `X[lo:hi]` (00_scope.md R9). -/
def slice {n : Nat} (lo hi : Nat) (x : ByteString n) : ByteString (hi - lo) :=
  .tabulate (hi - lo) (fun i => x.byte (lo + i))

/-- `X || Y` (00_scope.md R9). -/
def cat {m n : Nat} (x : ByteString m) (y : ByteString n) : ByteString (m + n) :=
  ⟨x.bytes ++ y.bytes, by simp [x.len, y.len]⟩

/-- Sixteen zero bytes. -/
def zeroBlock : Block := .tabulate 16 (fun _ => 0)

/-- `rotl(X, r)`: `Y[j] = X[(j + r) mod 16]` (42_temp_and_transform.md R133, 90_conflicts.md C1). -/
def rotl (x : Block) (r : Nat) : Block := .tabulate 16 (fun j => x.byte ((j + r) % 16))

/-- `cbyte(c)`: `c` in byte 15, zeros before it (42_temp_and_transform.md R135). -/
def cbyte (c : Byte) : Block := .tabulate 16 (fun i => if i = 15 then c else 0)

/-- `IN1 = SQN || AMF || SQN || AMF` (43_f1_f1star.md R150). -/
def in1 (sqn : ByteString 6) (amf : ByteString 2) : Block := cat (cat (cat sqn amf) sqn) amf

/-- An operand's bytes as a value of its required length; none for any other length: an operand is never
truncated or padded (10_state.md R23, 20_memory.md R54). -/
def sized? (n : Nat) (l : List Byte) : Option (ByteString n) :=
  if h : l.length = n then some ⟨l, h⟩ else none

end Sys2Proof.Machine
end

