-- ==== Sys2Proof/Machine/Aes.lean ====
section
/-! DEFINITION. AES-128 forward encryption (40_aes_binding.md annex A, R110 to R116), the function the
primitive is instantiated with. The annex is marked in the spec as general knowledge (log 9). -/

namespace Sys2Proof.Machine

/-- `xtime` in GF(2^8) with polynomial 0x11B (R110). -/
def xtime (a : Byte) : Byte := if a.toNat < 128 then a <<< 1 else (a <<< 1) ^^^ 0x1b

/-- `mul2` (R110). -/
def mul2 (a : Byte) : Byte := xtime a

/-- `mul3` (R110). -/
def mul3 (a : Byte) : Byte := xtime a ^^^ a

/-- The table of R111: row by the high hex digit, column by the low one. -/
def sboxRows : List (List Byte) :=
  [[0x63, 0x7c, 0x77, 0x7b, 0xf2, 0x6b, 0x6f, 0xc5, 0x30, 0x01, 0x67, 0x2b, 0xfe, 0xd7, 0xab, 0x76],
   [0xca, 0x82, 0xc9, 0x7d, 0xfa, 0x59, 0x47, 0xf0, 0xad, 0xd4, 0xa2, 0xaf, 0x9c, 0xa4, 0x72, 0xc0],
   [0xb7, 0xfd, 0x93, 0x26, 0x36, 0x3f, 0xf7, 0xcc, 0x34, 0xa5, 0xe5, 0xf1, 0x71, 0xd8, 0x31, 0x15],
   [0x04, 0xc7, 0x23, 0xc3, 0x18, 0x96, 0x05, 0x9a, 0x07, 0x12, 0x80, 0xe2, 0xeb, 0x27, 0xb2, 0x75]] ++
  [[0x09, 0x83, 0x2c, 0x1a, 0x1b, 0x6e, 0x5a, 0xa0, 0x52, 0x3b, 0xd6, 0xb3, 0x29, 0xe3, 0x2f, 0x84],
   [0x53, 0xd1, 0x00, 0xed, 0x20, 0xfc, 0xb1, 0x5b, 0x6a, 0xcb, 0xbe, 0x39, 0x4a, 0x4c, 0x58, 0xcf],
   [0xd0, 0xef, 0xaa, 0xfb, 0x43, 0x4d, 0x33, 0x85, 0x45, 0xf9, 0x02, 0x7f, 0x50, 0x3c, 0x9f, 0xa8],
   [0x51, 0xa3, 0x40, 0x8f, 0x92, 0x9d, 0x38, 0xf5, 0xbc, 0xb6, 0xda, 0x21, 0x10, 0xff, 0xf3, 0xd2]] ++
  [[0xcd, 0x0c, 0x13, 0xec, 0x5f, 0x97, 0x44, 0x17, 0xc4, 0xa7, 0x7e, 0x3d, 0x64, 0x5d, 0x19, 0x73],
   [0x60, 0x81, 0x4f, 0xdc, 0x22, 0x2a, 0x90, 0x88, 0x46, 0xee, 0xb8, 0x14, 0xde, 0x5e, 0x0b, 0xdb],
   [0xe0, 0x32, 0x3a, 0x0a, 0x49, 0x06, 0x24, 0x5c, 0xc2, 0xd3, 0xac, 0x62, 0x91, 0x95, 0xe4, 0x79],
   [0xe7, 0xc8, 0x37, 0x6d, 0x8d, 0xd5, 0x4e, 0xa9, 0x6c, 0x56, 0xf4, 0xea, 0x65, 0x7a, 0xae, 0x08]] ++
  [[0xba, 0x78, 0x25, 0x2e, 0x1c, 0xa6, 0xb4, 0xc6, 0xe8, 0xdd, 0x74, 0x1f, 0x4b, 0xbd, 0x8b, 0x8a],
   [0x70, 0x3e, 0xb5, 0x66, 0x48, 0x03, 0xf6, 0x0e, 0x61, 0x35, 0x57, 0xb9, 0x86, 0xc1, 0x1d, 0x9e],
   [0xe1, 0xf8, 0x98, 0x11, 0x69, 0xd9, 0x8e, 0x94, 0x9b, 0x1e, 0x87, 0xe9, 0xce, 0x55, 0x28, 0xdf],
   [0x8c, 0xa1, 0x89, 0x0d, 0xbf, 0xe6, 0x42, 0x68, 0x41, 0x99, 0x2d, 0x0f, 0xb0, 0x54, 0xbb, 0x16]]

/-- `SBOX[a]` (R111). -/
def sbox (a : Byte) : Byte := (sboxRows.getD (a.toNat / 16) []).getD (a.toNat % 16) 0

/-- `SubBytes`, and `SubWord` at length 4 (R111, R115). -/
def subBytes {n : Nat} (s : ByteString n) : ByteString n := .tabulate n (fun i => sbox (s.byte i))

/-- `ShiftRows(S)[r + 4c] = S[r + 4((c + r) mod 4)]` (R112). -/
def shiftRows (s : Block) : Block :=
  .tabulate 16 (fun i => s.byte (i % 4 + 4 * ((i / 4 + i % 4) % 4)))

/-- One byte of a mixed column: row `k` of the matrix of R113. -/
def mixByte (a0 a1 a2 a3 : Byte) (k : Nat) : Byte :=
  if k = 0 then mul2 a0 ^^^ mul3 a1 ^^^ a2 ^^^ a3
  else if k = 1 then a0 ^^^ mul2 a1 ^^^ mul3 a2 ^^^ a3
  else if k = 2 then a0 ^^^ a1 ^^^ mul2 a2 ^^^ mul3 a3
  else mul3 a0 ^^^ a1 ^^^ a2 ^^^ mul2 a3

/-- `MixColumns(S)[4c + k] = bk` (R113). -/
def mixColumns (s : Block) : Block :=
  .tabulate 16 (fun i =>
    let c := 4 * (i / 4)
    mixByte (s.byte c) (s.byte (c + 1)) (s.byte (c + 2)) (s.byte (c + 3)) (i % 4))

/-- A word of the key schedule: 4 bytes (R110). -/
abbrev KeyWord := ByteString 4

/-- `RotWord((a0,a1,a2,a3)) = (a1,a2,a3,a0)` (R115). -/
def rotWord (w : KeyWord) : KeyWord := .tabulate 4 (fun i => w.byte ((i + 1) % 4))

/-- `RCON[1..10]` (R115). -/
def rcon (i : Nat) : Byte :=
  ([0x00, 0x01, 0x02, 0x04, 0x08, 0x10, 0x20, 0x40, 0x80, 0x1b, 0x36] : List Byte).getD i 0

/-- The word `(RCON[i], 0, 0, 0)` (R115). -/
def rconWord (i : Nat) : KeyWord := .tabulate 4 (fun j => if j = 0 then rcon i else 0)

/-- The key-schedule words made so far, latest first; the default word is never read. -/
def wordAt (ws : List KeyWord) (back : Nat) : KeyWord := ws.getD back (.tabulate 4 (fun _ => 0))

/-- `w[0..j-1]` after `n` further words, latest first: `t` is `w[j-1]`, transformed when 4 divides `j`, and
`w[j] = w[j-4] xor t` (R115). -/
def expandKey : Nat → Nat → List KeyWord → List KeyWord
  | 0, _, ws => ws
  | n + 1, j, ws =>
    let t := wordAt ws 0
    let t' := if j % 4 = 0 then bxor (subBytes (rotWord t)) (rconWord (j / 4)) else t
    expandKey n (j + 1) (bxor (wordAt ws 3) t' :: ws)

/-- `w[j] = (key[4j], ..., key[4j+3])` for `j` in 0..3 (R110). -/
def keyWord (key : Block) (j : Nat) : KeyWord := .tabulate 4 (fun i => key.byte (4 * j + i))

/-- The 44 words of the key schedule, `w[0]` first (R115). -/
def keySchedule (key : Block) : List KeyWord :=
  (expandKey 40 4 [keyWord key 3, keyWord key 2, keyWord key 1, keyWord key 0]).reverse

/-- Round key `t`: `w[4t] || w[4t+1] || w[4t+2] || w[4t+3]` (R114). -/
def roundKey (ws : List KeyWord) (t : Nat) : Block :=
  cat (cat (cat (wordAt ws (4 * t)) (wordAt ws (4 * t + 1))) (wordAt ws (4 * t + 2))) (wordAt ws (4 * t + 3))

/-- `AddRoundKey(S, RK) = S xor RK` (R114). -/
def addRoundKey (s rk : Block) : Block := bxor s rk

/-- A round with MixColumns, rounds 1 to 9 (R116). -/
def aesRound (s rk : Block) : Block := addRoundKey (mixColumns (shiftRows (subBytes s))) rk

/-- The last round, without MixColumns (R116). -/
def aesLastRound (s rk : Block) : Block := addRoundKey (shiftRows (subBytes s)) rk

/-- Rounds `t`, `t+1`, ..., `n` of them, from the state `s`. -/
def aesRounds (ws : List KeyWord) : Nat → Nat → Block → Block
  | 0, _, s => s
  | n + 1, t, s => aesRounds ws n (t + 1) (aesRound s (roundKey ws t))

/-- `Encrypt(key, block)` for AES-128 (R116). -/
def aesEncrypt (key block : Block) : Block :=
  let ws := keySchedule key
  aesLastRound (aesRounds ws 9 1 (addRoundKey block (roundKey ws 0))) (roundKey ws 10)

end Sys2Proof.Machine
end

