-- ==== Sys2Proof/Machine/Flags.lean ====
section
/-! DEFINITION. The one flag, `CTX_VALID` (10_state.md R29), and the reading of the context registers. No
command computes any other flag. -/

namespace Sys2Proof.Machine

/-- The context a slot holds, if any. -/
def heldContext : ContextSlot → Option Context
  | .noContext => none
  | .held c => some c

/-- `CTX_VALID` (10_state.md R29). -/
def ctxValid (s : State) : Bool := (heldContext s.slot).isSome

/-- The context registers read by name; without a context they hold no value (10_state.md R34). -/
def ctxK (s : State) : Option Block := (heldContext s.slot).map (·.k)
def ctxOpc (s : State) : Option Block := (heldContext s.slot).map (·.opc)
def ctxRand (s : State) : Option Block := (heldContext s.slot).map (·.rand)
def ctxSqn (s : State) : Option (ByteString 6) := (heldContext s.slot).map (·.sqn)
def ctxAmf (s : State) : Option (ByteString 2) := (heldContext s.slot).map (·.amf)

end Sys2Proof.Machine
end

