-- ==== Sys2Proof/Machine/Ops.lean ====
section
/-! DEFINITION. The shared operations of all commands: a run of a command at the cipher binding, responding,
raising an error (the core's exceptions, 60_exceptions.md R218), the checks before execution, and the units
of 41 and 42 (OPc engine, TEMP, pipeline, multiplexer). -/

namespace Sys2Proof.Machine

/-- The primitive's answer to a request: it depends on the request alone (40_aes_binding.md R103). -/
def cipherAnswer (p : Primitive) (q : Request) : CipherAnswer :=
  match p with
  | .aes128 => .block (aesEncrypt q.key q.block)
  | .tabulated rows =>
    match rows.find? (fun row => row.request == q) with
    | none => .noAnswer
    | some row => row.answer

/-- How a run ends: with a value, with `raise <Error>` (00_scope.md R12), or never, at a request the
primitive does not answer (40_aes_binding.md R107). -/
inductive Ending (α : Type) where
  | done (a : α)
  | raised (e : Status)
  | silent
  deriving DecidableEq, Repr

/-- A command's run: the requests it issued, in order, and how it ended. -/
structure Run (α : Type) where
  issued : List Request
  ending : Ending α
  deriving DecidableEq, Repr

/-- A run that issues nothing and has the value `a`. -/
def value {α : Type} (a : α) : Run α := ⟨[], .done a⟩

/-- `raise e` (00_scope.md R12). -/
def raise {α : Type} (e : Status) : Run α := ⟨[], .raised e⟩

/-- Do `x` and then `f` of its value; after an error or a silent request nothing more is done. -/
def andThen {α β : Type} (x : Run α) (f : α → Run β) : Run β :=
  match x.ending with
  | .done a => ⟨x.issued ++ (f a).issued, (f a).ending⟩
  | .raised e => ⟨x.issued, .raised e⟩
  | .silent => ⟨x.issued, .silent⟩

/-- One `Encrypt` request: on `CipherError` the command raises `ERR_CIPHER` (40_aes_binding.md R102,
60_exceptions.md R213). -/
def encrypt (p : Primitive) (key block : Block) : Run Block :=
  ⟨[⟨key, block⟩],
    match cipherAnswer p ⟨key, block⟩ with
    | .block b => .done b
    | .cipherError => .raised .errCipher
    | .noAnswer => .silent⟩

/-- What a successful command does: the slot it leaves and the fields it responds with. -/
structure Effect where
  slot   : ContextSlot
  fields : List (List Byte)
  deriving DecidableEq, Repr

/-- `respond(OK, ...)`: all register writes at once, and the response (30_encoding.md R78, 20_memory.md R55). -/
def respondOk (s : State) (issued : List Request) (e : Effect) : State :=
  { s with
    slot := e.slot
    responsePort := s.responsePort ++ [okFrame e.fields]
    bindingTrace := s.bindingTrace ++ issued }

/-- TAKING AN EXCEPTION: no register is written, the response is the single status byte, control goes nowhere
(60_exceptions.md R218). There is nothing to return from: the next frame is taken as after a command with no
effect (R219). -/
def raiseStatus (s : State) (issued : List Request) (e : Status) : State :=
  { s with
    responsePort := s.responsePort ++ [errorFrame e]
    bindingTrace := s.bindingTrace ++ issued }

/-- A command ends: it responds, raises, or is stuck. -/
def finish (s : State) (r : Run Effect) : Host.Outcome State Fault Refusal :=
  match r.ending with
  | .done e => .next (respondOk s r.issued e)
  | .raised e => .next (raiseStatus s r.issued e)
  | .silent => .fault (.primitiveSilent r.issued)

/-- An operand of required length `n`, else `ERR_LENGTH` (60_exceptions.md R212). -/
def operand (n : Nat) (l : List Byte) : Run (ByteString n) :=
  match sized? n l with
  | some x => value x
  | none => raise .errLength

/-- The `CTX_VALID` check (30_encoding.md R77): the context, else `ERR_NO_CONTEXT` (60_exceptions.md R216). -/
def needContext (s : State) : Run Context :=
  match heldContext s.slot with
  | some c => value c
  | none => raise .errNoContext

/-- `ComputeOPc(OP, K) = Encrypt(K, OP) xor OP` (41_opc_derivation.md R120). -/
def computeOpc (p : Primitive) (op k : Block) : Run Block :=
  andThen (encrypt p k op) (fun e => value (bxor e op))

/-- `ComputeTemp(RAND, OPc, K) = Encrypt(K, RAND xor OPc)` (42_temp_and_transform.md R130). -/
def computeTemp (p : Primitive) (rand opc k : Block) : Run Block :=
  encrypt p k (bxor rand opc)

/-- The block `PIPE` encrypts: `rotl(A xor OPc, r) xor B xor cbyte(c)` (42_temp_and_transform.md R136). -/
def pipeInput (opc a b : Block) (r : Nat) (c : Byte) : Block :=
  bxor (bxor (rotl (bxor a opc) r) b) (cbyte c)

/-- `PIPE(A, B, r, c)`, the final xor over the full block (42_temp_and_transform.md R136, R137). -/
def pipe (p : Primitive) (ctx : Context) (a b : Block) (r : Nat) (c : Byte) : Run Block :=
  andThen (encrypt p ctx.k (pipeInput ctx.opc a b r c)) (fun e => value (bxor e ctx.opc))

/-- What the multiplexer can select as a pipeline input (42_temp_and_transform.md R138). -/
inductive PipeSource where
  | in1 | temp | zero
  deriving DecidableEq, Repr

/-- A row of the multiplexer table (42_temp_and_transform.md R138): inputs, rotation, constant, output slice. -/
structure MuxRow where
  a  : PipeSource
  b  : PipeSource
  r  : Nat
  c  : Byte
  lo : Nat
  hi : Nat
  deriving DecidableEq, Repr

/-- The rows of FSEL 0 to 6 (42_temp_and_transform.md R138, R139): f1, f1*, f2, f3, f4, f5, f5*. -/
def muxTable : List MuxRow :=
  [⟨.in1, .temp, 8, 0x00#8, 0, 8⟩,
   ⟨.in1, .temp, 8, 0x00#8, 8, 16⟩,
   ⟨.temp, .zero, 0, 0x01#8, 8, 16⟩,
   ⟨.temp, .zero, 4, 0x02#8, 0, 16⟩,
   ⟨.temp, .zero, 8, 0x04#8, 0, 16⟩,
   ⟨.temp, .zero, 0, 0x01#8, 0, 6⟩,
   ⟨.temp, .zero, 12, 0x08#8, 0, 6⟩]

/-- The selected pipeline input. -/
def pipeSource (ctx : Context) (temp : Block) : PipeSource → Block
  | .in1 => in1 ctx.sqn ctx.amf
  | .temp => temp
  | .zero => zeroBlock

/-- The pipeline run of a row (42_temp_and_transform.md R140 steps 3 and 4). -/
def muxPipe (p : Primitive) (ctx : Context) (temp : Block) (row : MuxRow) : Run Block :=
  pipe p ctx (pipeSource ctx temp row.a) (pipeSource ctx temp row.b) row.r row.c

/-- FSEL 0 to 6: TEMP, one pipeline run, the slice of the row (42_temp_and_transform.md R140). -/
def singleFunction (p : Primitive) (ctx : Context) (row : MuxRow) : Run (List (List Byte)) :=
  andThen (computeTemp p ctx.rand ctx.opc ctx.k) fun temp =>
  andThen (muxPipe p ctx temp row) fun out =>
  value [(slice row.lo row.hi out).bytes]

/-- FSEL 7: TEMP once, then OUT2, OUT3, OUT4 in that order; RES, CK, IK, AK (44_f2345.md R167). -/
def combinedFunction (p : Primitive) (ctx : Context) : Run (List (List Byte)) :=
  andThen (computeTemp p ctx.rand ctx.opc ctx.k) fun temp =>
  andThen (pipe p ctx temp zeroBlock 0 0x01#8) fun out2 =>
  andThen (pipe p ctx temp zeroBlock 4 0x02#8) fun out3 =>
  andThen (pipe p ctx temp zeroBlock 8 0x04#8) fun out4 =>
  value [(slice 8 16 out2).bytes, out3.bytes, out4.bytes, (slice 0 6 out2).bytes]

/-- The function FSEL selects: a row of the table, or for 7 the combined function (42_temp_and_transform.md
R138). -/
def selectedFunction (p : Primitive) (ctx : Context) (fsel : BitVec 3) : Run (List (List Byte)) :=
  match muxTable[fsel.toNat]? with
  | some row => singleFunction p ctx row
  | none => combinedFunction p ctx

/-- An f-command: the context check, the function FSEL selects, the response; no register is written
(42_temp_and_transform.md R140). -/
def functionCommand (s : State) (fsel : BitVec 3) : Run Effect :=
  andThen (needContext s) fun ctx =>
  andThen (selectedFunction s.primitive ctx fsel) fun fields =>
  value ⟨s.slot, fields⟩

end Sys2Proof.Machine
end

