-- ==== Sys2Proof/Machine/Contexts.lean ====
section
/-! DEFINITION. The meanings of the context commands (46_context_commands.md R190 to R194). -/

namespace Sys2Proof.Machine

/-- `NEW_CTX_OP K OP RAND SQN AMF`: derives OPc and writes all five registers and `CTX_VALID` at once,
after every check and the cipher call (R190). -/
def execNewCtxOp (k op rand sqn amf : List Byte) (s : State) : Host.Outcome State Fault Refusal :=
  finish s <|
    andThen (operand 16 k) fun k =>
    andThen (operand 16 op) fun op =>
    andThen (operand 16 rand) fun rand =>
    andThen (operand 6 sqn) fun sqn =>
    andThen (operand 2 amf) fun amf =>
    andThen (computeOpc s.primitive op k) fun opc =>
    value ⟨.held ⟨k, opc, rand, sqn, amf⟩, []⟩

/-- `NEW_CTX_OPC K OPc RAND SQN AMF`: OPc is taken as it is, no request is made (R191). -/
def execNewCtxOpc (k opc rand sqn amf : List Byte) (s : State) : Host.Outcome State Fault Refusal :=
  finish s <|
    andThen (operand 16 k) fun k =>
    andThen (operand 16 opc) fun opc =>
    andThen (operand 16 rand) fun rand =>
    andThen (operand 6 sqn) fun sqn =>
    andThen (operand 2 amf) fun amf =>
    value ⟨.held ⟨k, opc, rand, sqn, amf⟩, []⟩

/-- `SET_SQN SQN`: writes `ctx.SQN` only; the length is checked before `CTX_VALID` (R192). -/
def execSetSqn (sqn : List Byte) (s : State) : Host.Outcome State Fault Refusal :=
  finish s <|
    andThen (operand 6 sqn) fun sqn =>
    andThen (needContext s) fun ctx =>
    value ⟨.held { ctx with sqn := sqn }, []⟩

/-- `SET_AMF AMF`: writes `ctx.AMF` only; the length is checked before `CTX_VALID` (R193). -/
def execSetAmf (amf : List Byte) (s : State) : Host.Outcome State Fault Refusal :=
  finish s <|
    andThen (operand 2 amf) fun amf =>
    andThen (needContext s) fun ctx =>
    value ⟨.held { ctx with amf := amf }, []⟩

/-- `DISCARD`: no context afterwards, whatever was before (R194). -/
def execDiscard (s : State) : Host.Outcome State Fault Refusal :=
  finish s (value ⟨.noContext, []⟩)

end Sys2Proof.Machine
end

