-- ==== Sys2Proof/Machine/Functions.lean ====
section
/-! DEFINITION. The meanings of the eight f-commands: each is the control sequence of 42_temp_and_transform.md
R140 with the function select its opcode carries (30_encoding.md R74). -/

namespace Sys2Proof.Machine

/-- `F1`: MAC_A = OUT1[0:8] (43_f1_f1star.md R151). -/
def execF1 (s : State) : Host.Outcome State Fault Refusal :=
  finish s (functionCommand s (Opcode.fsel .f1))

/-- `F1STAR`: MAC_S = OUT1[8:16] (43_f1_f1star.md R152). -/
def execF1star (s : State) : Host.Outcome State Fault Refusal :=
  finish s (functionCommand s (Opcode.fsel .f1star))

/-- `F2`: RES = OUT2[8:16] (44_f2345.md R163). -/
def execF2 (s : State) : Host.Outcome State Fault Refusal :=
  finish s (functionCommand s (Opcode.fsel .f2))

/-- `F3`: CK = OUT3[0:16] (44_f2345.md R164). -/
def execF3 (s : State) : Host.Outcome State Fault Refusal :=
  finish s (functionCommand s (Opcode.fsel .f3))

/-- `F4`: IK = OUT4[0:16] (44_f2345.md R165). -/
def execF4 (s : State) : Host.Outcome State Fault Refusal :=
  finish s (functionCommand s (Opcode.fsel .f4))

/-- `F5`: AK = OUT2[0:6] (44_f2345.md R166). -/
def execF5 (s : State) : Host.Outcome State Fault Refusal :=
  finish s (functionCommand s (Opcode.fsel .f5))

/-- `F5STAR`: AK* = OUT5[0:6] (45_f5star.md R181). -/
def execF5star (s : State) : Host.Outcome State Fault Refusal :=
  finish s (functionCommand s (Opcode.fsel .f5star))

/-- `F2345`: RES, CK, IK, AK (44_f2345.md R167). -/
def execF2345 (s : State) : Host.Outcome State Fault Refusal :=
  finish s (functionCommand s (Opcode.fsel .f2345))

end Sys2Proof.Machine
end

