-- ==== Sys2Proof/Machine/OpcDerivation.lean ====
section
/-! DEFINITION. The meaning of `COMPUTE_OPC` (41_opc_derivation.md R121). -/

namespace Sys2Proof.Machine

/-- `COMPUTE_OPC OP K`: responds with `Encrypt(K, OP) xor OP`; reads and writes no register, with or without
a context (R121). -/
def execComputeOpc (op k : List Byte) (s : State) : Host.Outcome State Fault Refusal :=
  finish s <|
    andThen (operand 16 op) fun op =>
    andThen (operand 16 k) fun k =>
    andThen (computeOpc s.primitive op k) fun opc =>
    value ⟨s.slot, [opc.bytes]⟩

end Sys2Proof.Machine
end

