-- ==== Sys2Proof/Machine/Dispatch.lean ====
section
/-! DEFINITION. One arm per command: the call of its meaning. -/

namespace Sys2Proof.Machine

def exec (i : Instr) (s : State) : Host.Outcome State Fault Refusal :=
  match i with
  | .computeOpc op k => Sys2Proof.Machine.execComputeOpc op k s
  | .newCtxOp k op rand sqn amf => Sys2Proof.Machine.execNewCtxOp k op rand sqn amf s
  | .newCtxOpc k opc rand sqn amf => Sys2Proof.Machine.execNewCtxOpc k opc rand sqn amf s
  | .setSqn sqn => Sys2Proof.Machine.execSetSqn sqn s
  | .setAmf amf => Sys2Proof.Machine.execSetAmf amf s
  | .discard => Sys2Proof.Machine.execDiscard s
  | .f1 => Sys2Proof.Machine.execF1 s
  | .f1star => Sys2Proof.Machine.execF1star s
  | .f2 => Sys2Proof.Machine.execF2 s
  | .f3 => Sys2Proof.Machine.execF3 s
  | .f4 => Sys2Proof.Machine.execF4 s
  | .f5 => Sys2Proof.Machine.execF5 s
  | .f5star => Sys2Proof.Machine.execF5star s
  | .f2345 => Sys2Proof.Machine.execF2345 s

end Sys2Proof.Machine
end

