-- ==== Sys2Proof/Machine/Sequencer.lean ====
section
/-! DEFINITION. How the core takes one event of the host (20_memory.md R56, 70_reset_and_hazards.md R240,
R241). -/

namespace Sys2Proof.Machine

/-- One command frame, from decoding to its response (30_encoding.md R76, R77, 60_exceptions.md R217). -/
def runFrame (f : Frame) (s : State) : Host.Outcome State Fault Refusal :=
  match decode f with
  | .error e => .next (raiseStatus s [] e)
  | .ok i => exec i s

/-- Reset of an idle core: no context, nothing pending (70_reset_and_hazards.md R240, 10_state.md R34). The
records of what the host and the binding have already seen stay (log 5). -/
def resetCore (s : State) : State := { s with slot := .noContext }

/-- The requests a command issued, read from its outcome: what it appended to the binding trace, or what it
had issued when it got stuck. -/
def issuedBy (s : State) (o : Host.Outcome State Fault Refusal) : List Request :=
  match o with
  | .next t => t.bindingTrace.drop s.bindingTrace.length
  | .fault (.primitiveSilent issued) => issued
  | .refused _ => []

/-- Reset while a command runs: the frame was consumed, no register is written, no response is sent, and the
binding has seen the first `n` of the command's requests (70_reset_and_hazards.md R241). -/
def abandonCommand (f : Frame) (n : Nat) (s : State) : State :=
  let s' := resetCore s
  { s' with bindingTrace := s.bindingTrace ++ (issuedBy s (runFrame f s)).take n }

/-- The core takes one event, `s` being the state with that event consumed. -/
def takeEvent (e : HostEvent) (s : State) : Host.Outcome State Fault Refusal :=
  match e with
  | .frame f => runFrame f s
  | .reset => .next (resetCore s)
  | .frameThenReset f n => .next (abandonCommand f n s)

/-- The state with `f` as the next thing at the command port. -/
def offerFrame (f : Frame) (s : State) : State :=
  { s with commandPort := .frame f :: s.commandPort }

end Sys2Proof.Machine
end

