-- ==== Sys2Proof/Machine/Step.lean ====
section
/-! DEFINITION. One step of the core: take the next event at the command port, run it to completion
(20_memory.md R56, R57). -/

namespace Sys2Proof.Machine

/-- With nothing at the command port the core is idle and holds its state (60_exceptions.md R222, log 7). -/
def step (s : State) : Host.Outcome State Fault Refusal :=
  match s.commandPort with
  | [] => .next s
  | e :: rest => takeEvent e { s with commandPort := rest }

/-- `s` with an opcode-table word's frame as the next frame at the command port (log 10, log 11). -/
def State.withFetchWord (s : State) (nbits w : Nat) : State := offerFrame (tableFrame nbits w) s

end Sys2Proof.Machine
end

