-- ==== Sys2Proof/Machine/Assembly.lean ====
section
/-! DEFINITION. The textual form of commands and responses (30_encoding.md R80): `MNEMONIC name=<hex> ...`,
`RAW <hex>`, `-> STATUS name=<hex> ...`. For writing frames down; no step of the core uses it (log 18). -/

namespace Sys2Proof

/-- The mnemonic, as opcode_table.json spells it. -/
def Opcode.mnemonic : Opcode → String
  | .computeOpc => "COMPUTE_OPC"
  | .newCtxOp => "NEW_CTX_OP"
  | .newCtxOpc => "NEW_CTX_OPC"
  | .setSqn => "SET_SQN"
  | .setAmf => "SET_AMF"
  | .discard => "DISCARD"
  | .f1 => "F1"
  | .f1star => "F1STAR"
  | .f2 => "F2"
  | .f3 => "F3"
  | .f4 => "F4"
  | .f5 => "F5"
  | .f5star => "F5STAR"
  | .f2345 => "F2345"

/-- The operand names, in field order. -/
def Opcode.operandNames : Opcode → List String
  | .computeOpc => ["OP", "K"]
  | .newCtxOp => ["K", "OP", "RAND", "SQN", "AMF"]
  | .newCtxOpc => ["K", "OPC", "RAND", "SQN", "AMF"]
  | .setSqn => ["SQN"]
  | .setAmf => ["AMF"]
  | .discard => []
  | .f1 => []
  | .f1star => []
  | .f2 => []
  | .f3 => []
  | .f4 => []
  | .f5 => []
  | .f5star => []
  | .f2345 => []

/-- The result names, in field order. -/
def Opcode.resultNames : Opcode → List String
  | .computeOpc => ["OPC"]
  | .newCtxOp => []
  | .newCtxOpc => []
  | .setSqn => []
  | .setAmf => []
  | .discard => []
  | .f1 => ["MAC_A"]
  | .f1star => ["MAC_S"]
  | .f2 => ["RES"]
  | .f3 => ["CK"]
  | .f4 => ["IK"]
  | .f5 => ["AK"]
  | .f5star => ["AK_STAR"]
  | .f2345 => ["RES", "CK", "IK", "AK"]

/-- The status names (60_exceptions.md R211). -/
def Status.mnemonic : Status → String
  | .ok => "OK"
  | .errLength => "ERR_LENGTH"
  | .errCipher => "ERR_CIPHER"
  | .errOpcode => "ERR_OPCODE"
  | .errFrame => "ERR_FRAME"
  | .errNoContext => "ERR_NO_CONTEXT"

/-- The lower-case hex digits. -/
def hexDigits : List Char :=
  ['0', '1', '2', '3', '4', '5', '6', '7', '8', '9', 'a', 'b', 'c', 'd', 'e', 'f']

/-- Bytes from index 0, two digits each, high digit first (00_scope.md R8). -/
def hexText (l : List Byte) : List Char :=
  l.flatMap (fun b => [hexDigits.getD (b.toNat / 16) '0', hexDigits.getD (b.toNat % 16) '0'])

/-- The value of a hex digit. -/
def hexValue (c : Char) : Option Nat := hexDigits.findIdx? (fun d => d == c)

/-- The bytes of a hex text; none for an odd length or a foreign character. -/
def readHex : List Char → Option (List Byte)
  | [] => some []
  | [_] => none
  | a :: b :: rest =>
    match hexValue a, hexValue b, readHex rest with
    | some h, some l, some bs => some (BitVec.ofNat 8 (16 * h + l) :: bs)
    | _, _, _ => none

/-- ` name=<hex>` for each name and value. -/
def namedFields (names : List String) (values : List (List Byte)) : List Char :=
  (names.zip values).flatMap (fun nv => ' ' :: nv.1.toList ++ '=' :: hexText nv.2)

/-- A command as text. -/
def commandText (i : Instr) : List Char :=
  i.opcode.mnemonic.toList ++ namedFields i.opcode.operandNames i.operands

/-- A response to a command of opcode `o` as text; none if the bytes are no such response. -/
def responseText (o : Opcode) (f : Frame) : Option (List Char) :=
  (readResponse o.resultLens.length f).map
    (fun r => ['-', '>', ' '] ++ r.1.mnemonic.toList ++ namedFields o.resultNames r.2)

/-- The words of a text, separated by single spaces. -/
def splitWords : List Char → List (List Char)
  | [] => [[]]
  | c :: cs =>
    if c = ' ' then [] :: splitWords cs
    else
      match splitWords cs with
      | [] => [[c]]
      | w :: ws => (c :: w) :: ws

/-- The value of one `name=<hex>` word, of at most 255 bytes, so that its `LEN` exists (30_encoding.md R71). -/
def readOperand (name : String) (word : List Char) : Option (List Byte) :=
  if (name.toList ++ ['=']).isPrefixOf word then
    match readHex (word.drop (name.toList.length + 1)) with
    | some d => if d.length ≤ 255 then some d else none
    | none => none
  else none

/-- The values of a command's operand words, in field order. -/
def readOperands : List String → List (List Char) → Option (List (List Byte))
  | [], [] => some []
  | n :: ns, w :: ws =>
    match readOperand n w, readOperands ns ws with
    | some d, some ds => some (d :: ds)
    | _, _ => none
  | _, _ => none

/-- The frame a text assembles to: a command, or `RAW <hex>` (30_encoding.md R80). -/
def assemble (text : List Char) : Option Frame :=
  match splitWords text with
  | [] => none
  | m :: ws =>
    if m = ['R', 'A', 'W'] then
      match ws with
      | [w] => readHex w
      | _ => none
    else
      match Opcode.all.find? (fun o => o.mnemonic.toList == m) with
      | none => none
      | some o =>
        match readOperands o.operandNames ws with
        | none => none
        | some ds => (Instr.ofParts? o ds).map encode

end Sys2Proof
end

