-- ==== Sys2Proof/Safety.lean ====
section
/-! DEFINITION. What claims about the core are said in: the premise that the primitive answers, legal
responses, what the host and the binding see of a stretch of a run, and the shapes the command rules share. -/

namespace Sys2Proof.Safety

open Sys2Proof.Machine

/-- The named premise of 40_aes_binding.md R107: the primitive answers every request. -/
def PrimitiveAnswers (p : Primitive) : Prop := ∀ q, cipherAnswer p q ≠ .noAnswer

/-- A legal response to a command of opcode `o`: `OK` with the fields of the opcode at their lengths, or one
status byte that is not `OK` (30_encoding.md R78, R79, 60_exceptions.md R211). -/
def LegalResponseTo (o : Opcode) (f : Frame) : Prop :=
  (∃ fields, f = okFrame fields ∧ fields.map List.length = o.resultLens) ∨
  (∃ e, e ≠ Status.ok ∧ f = errorFrame e)

/-- A response that is legal for some opcode. -/
def LegalResponse (f : Frame) : Prop := ∃ o, LegalResponseTo o f

/-- Every response ever emitted is legal. -/
def ResponsesLegal (s : State) : Prop := ∀ f ∈ s.responsePort, LegalResponse f

/-- `s` after the response `f` was emitted and the requests `qs` were issued, all else unchanged. -/
def emit (s : State) (f : Frame) (qs : List Request) : State :=
  { s with responsePort := s.responsePort ++ [f], bindingTrace := s.bindingTrace ++ qs }

/-- From `s` to `t` the core emitted the responses `rs` and issued the requests `qs`, and nothing else. -/
def Appends (s t : State) (rs : List Frame) (qs : List Request) : Prop :=
  t.responsePort = s.responsePort ++ rs ∧ t.bindingTrace = s.bindingTrace ++ qs

/-- From `s` to `t` no register, no flag, nothing at the command port and nothing of the primitive changed. -/
def SameRegisters (s t : State) : Prop :=
  t.slot = s.slot ∧ t.commandPort = s.commandPort ∧ t.primitive = s.primitive

/-- Two states that differ at most in what was emitted and issued before them (10_state.md R32). -/
def SameCore (s t : State) : Prop :=
  s.slot = t.slot ∧ s.commandPort = t.commandPort ∧ s.primitive = t.primitive

/-- Two outcomes, from `s` and from `t`, that look alike from outside: the same responses and requests, or
the same stop. -/
def SameAnswer (s t : State) (a b : Host.Outcome State Fault Refusal) : Prop :=
  match a, b with
  | .next s', .next t' => ∃ rs qs, Appends s s' rs qs ∧ Appends t t' rs qs
  | .fault r, .fault r' => r = r'
  | .refused r, .refused r' => r = r'
  | _, _ => False

/-- Two outcomes that look alike and leave the same core. -/
def SameRun (s t : State) (a b : Host.Outcome State Fault Refusal) : Prop :=
  SameAnswer s t a b ∧ ∀ s' t', a = .next s' → b = .next t' → SameCore s' t'

/-- The eight f-commands (30_encoding.md R73, opcodes 0x10 to 0x17). -/
def fCommands : List Instr := [.f1, .f1star, .f2, .f3, .f4, .f5, .f5star, .f2345]

/-- The opcodes whose commands check `CTX_VALID` (30_encoding.md R77). -/
def contextOpcodes : List Opcode := [.setSqn, .setAmf, .f1, .f1star, .f2, .f3, .f4, .f5, .f5star, .f2345]

/-- The decoding side of a format-N command: one byte, and any byte after it is `ERR_FRAME`
(30_encoding.md R70, R76, 60_exceptions.md R215). -/
def FormatN (b : Byte) (i : Instr) : Prop :=
  encode i = [b] ∧ decode [b] = .ok i ∧ ∀ x rest, decode (b :: x :: rest) = .error .errFrame

/-- The decoding side of a format-V command with the required lengths `lens`: a frame whose fields cannot be
walked is `ERR_FRAME`, one with a field of another length `ERR_LENGTH`, every other is accepted
(30_encoding.md R70, R76). -/
def FormatV (b : Byte) (lens : List Nat) : Prop :=
  ∀ rest,
    (splitFields lens.length rest = none → decode (b :: rest) = .error .errFrame) ∧
    (∀ fs, splitFields lens.length rest = some fs → fs.map List.length ≠ lens →
      decode (b :: rest) = .error .errLength) ∧
    (∀ fs, splitFields lens.length rest = some fs → fs.map List.length = lens →
      ∃ i, decode (b :: rest) = .ok i ∧ i.operands = fs)

/-- The TEMP request of a context (42_temp_and_transform.md R130). -/
def tempRequest (c : Context) : Request := ⟨c.k, bxor c.rand c.opc⟩

/-- The shape the seven single-function commands share: without a context `ERR_NO_CONTEXT`; with one, the
TEMP request, then one request for the block `input`, and the response `output` of the answer; `ERR_CIPHER`
with the requests made so far when one of them fails. Nothing else changes. -/
def SingleFunctionRule (i : Instr) (input : Context → Block → Block) (output : Context → Block → Frame) :
    Prop :=
  ∀ s : State,
    (s.slot = .noContext → exec i s = .next (emit s [0x05#8] [])) ∧
    ∀ c, s.slot = .held c →
      (cipherAnswer s.primitive (tempRequest c) = .cipherError →
        exec i s = .next (emit s [0x02#8] [tempRequest c])) ∧
      ∀ temp, cipherAnswer s.primitive (tempRequest c) = .block temp →
        (cipherAnswer s.primitive ⟨c.k, input c temp⟩ = .cipherError →
          exec i s = .next (emit s [0x02#8] [tempRequest c, ⟨c.k, input c temp⟩])) ∧
        ∀ e, cipherAnswer s.primitive ⟨c.k, input c temp⟩ = .block e →
          exec i s = .next (emit s (output c e) [tempRequest c, ⟨c.k, input c temp⟩])

/-- A product in GF(2^8) with polynomial 0x11B, by the bits of the first factor (40_aes_binding.md R110). -/
def gfMul (a b : Byte) : Byte :=
  (List.range 8).foldr (fun k acc => xtime acc ^^^ (if a.getLsbD k then b else 0)) 0

end Sys2Proof.Safety
end

