-- ==== Sys2Proof/Certificates/Slice0/Obligations.lean ====
section
/-! DEFINITION. The statements for the provers, one per obligation of OBLIGATIONS.json. -/

open Sys2Proof Sys2Proof.Machine Sys2Proof.Safety

/-! ## Reset and the host's events -/

/-- R34, R240: after reset `CTX_VALID` is 0, no context register holds a value, nothing is pending. That the
records of responses and requests start empty is the model's choice (log 5). -/
def Obligations.ResetHoldsNoContext : Prop :=
  ctxValid State.reset = false ∧
  ctxK State.reset = none ∧ ctxOpc State.reset = none ∧ ctxRand State.reset = none ∧
  ctxSqn State.reset = none ∧ ctxAmf State.reset = none ∧
  State.reset.commandPort = [] ∧ State.reset.responsePort = [] ∧ State.reset.bindingTrace = []

/-- R240: a reset between commands ends the context. The model's choice: what was sent and issued before stays
recorded (log 5), the later events and the primitive stay (log 19). -/
def Obligations.ResetEventEndsContext : Prop :=
  ∀ (s : State) (rest : List HostEvent), s.commandPort = .reset :: rest →
    ∃ t, step s = .next t ∧ t.slot = State.reset.slot ∧ ctxValid t = false ∧ t.commandPort = rest ∧
      Appends s t [] [] ∧ t.primitive = s.primitive

/-- R241: a command during which reset is asserted sends no response and writes no register, the state is the
reset state, and the binding has seen a prefix of the command's trace, also when the command would have got
stuck (log 6). The model's choice: what was sent and issued before stays recorded (log 5), the later events and
the primitive stay (log 19). -/
def Obligations.ResetDuringCommandAbandonsIt : Prop :=
  ∀ (s : State) (f : Frame) (n : Nat) (rest : List HostEvent),
    s.commandPort = .frameThenReset f n :: rest →
    let running := { s with commandPort := rest }
    ∃ t qs, step s = .next t ∧ t.slot = State.reset.slot ∧ t.commandPort = rest ∧
      t.primitive = s.primitive ∧ Appends s t [] qs ∧
      (∀ u rs us, runFrame f running = .next u → Appends running u rs us → qs = us.take n) ∧
      (∀ us, runFrame f running = .fault (.primitiveSilent us) → qs = us.take n)

/-- R222: with no frame and no reset the core is idle and holds its state; that this is a step is the model's
choice (log 7). -/
def Obligations.IdleCoreHoldsItsState : Prop :=
  ∀ s : State, s.commandPort = [] → step s = .next s

/-- R28, R56: a step takes the next frame and runs the command it decodes to, and does nothing else. -/
def Obligations.StepRunsTheDecodedCommand : Prop :=
  ∀ (s : State) (f : Frame) (rest : List HostEvent) (i : Instr),
    s.commandPort = .frame f :: rest → decode f = .ok i →
    step s = exec i { s with commandPort := rest }

/-- R218 for the decoder's errors: a frame that does not decode is answered by its one status byte, with no
request and no register written. -/
def Obligations.UndecodableFrameIsAnswered : Prop :=
  ∀ (s : State) (f : Frame) (rest : List HostEvent) (e : Status),
    s.commandPort = .frame f :: rest → decode f = .error e →
    step s = .next (emit { s with commandPort := rest } [e.byte] [])

/-! ## Encoding -/

/-- R73: frames written out from the table, one per family, decode to the command they stand for. -/
def Obligations.SampleFramesDecode : Prop :=
  decode (0x01#8 :: 0x10#8 :: List.replicate 16 0xaa#8 ++ 0x10#8 :: List.replicate 16 0xbb#8) =
    .ok (.computeOpc (List.replicate 16 0xaa#8) (List.replicate 16 0xbb#8)) ∧
  decode [0x04#8, 0x06#8, 0xff#8, 0x9b#8, 0xb4#8, 0xd0#8, 0xb6#8, 0x07#8] =
    .ok (.setSqn [0xff#8, 0x9b#8, 0xb4#8, 0xd0#8, 0xb6#8, 0x07#8]) ∧
  decode [0x05#8, 0x02#8, 0xb9#8, 0xb8#8] = .ok (.setAmf [0xb9#8, 0xb8#8]) ∧
  decode [0x06#8] = .ok .discard ∧ decode [0x10#8] = .ok .f1 ∧ decode [0x16#8] = .ok .f5star ∧
  decode [0x17#8] = .ok .f2345

/-- R70, R71, R73, R76: the frame of every well-formed command decodes to that command. -/
def Obligations.DecodeOfEncodeIsTheCommand : Prop :=
  ∀ i : Instr, i.wellFormed = true → decode (encode i) = .ok i

/-- R76: a frame the decoder accepts is the frame of the well-formed command it answers, so that every command
has exactly one frame. -/
def Obligations.AcceptedFrameIsItsCommandsFrame : Prop :=
  ∀ (f : Frame) (i : Instr), decode f = .ok i → i.wellFormed = true ∧ encode i = f

/-- R75, R214: a frame with a reserved opcode is refused with `ERR_OPCODE` whatever follows, with no request
and no register written; 242 opcode bytes are reserved. -/
def Obligations.ReservedOpcodesAreRefused : Prop :=
  (∀ b : Byte, (b = 0x00#8 ∨ (0x07#8 ≤ b ∧ b ≤ 0x0f#8) ∨ 0x18#8 ≤ b) ↔ ∀ rest, decode (b :: rest) = .error .errOpcode) ∧
  ((List.range 256).filter (fun n => (Opcode.ofByte? (BitVec.ofNat 8 n)).isNone)).length = 242 ∧
  ∀ (s : State) (b : Byte) (more : Frame) (rest : List HostEvent),
    (b = 0x00#8 ∨ (0x07#8 ≤ b ∧ b ≤ 0x0f#8) ∨ 0x18#8 ≤ b) → s.commandPort = .frame (b :: more) :: rest →
    step s = .next (emit { s with commandPort := rest } [0x03#8] [])

/-- R215: `ERR_FRAME` is answered exactly for the empty frame and for a known opcode whose tail is not its
number of fields, each a `LEN` byte and that many bytes. -/
def Obligations.FrameErrorExactlyForBrokenStructure : Prop :=
  ∀ f : Frame, decode f = .error .errFrame ↔
    f = [] ∨ ∃ (o : Opcode) (rest : List Byte), f = o.byte :: rest ∧
      ¬ ∃ fs : List (List Byte), fs.length = o.operandLens.length ∧ (∀ d ∈ fs, d.length ≤ 255) ∧
        rest = fs.flatMap field

/-- R212: `ERR_LENGTH` is answered exactly for a well-framed command with an operand of another length, before
any request, with no register written; a command without operands never raises it. -/
def Obligations.LengthErrorExactlyForWrongOperands : Prop :=
  (∀ f : Frame, decode f = .error .errLength ↔
    ∃ i : Instr, f = encode i ∧ (∀ d ∈ i.operands, d.length ≤ 255) ∧
      i.operands.map List.length ≠ i.opcode.operandLens) ∧
  (∀ (s : State) (f : Frame) (rest : List HostEvent), s.commandPort = .frame f :: rest →
    decode f = .error .errLength → step s = .next (emit { s with commandPort := rest } [0x01#8] [])) ∧
  (∀ i : Instr, i.operands = [] → ∀ tail, decode (i.opcode.byte :: tail) ≠ .error .errLength)

/-- R74: in the f-command opcodes bits 7..3 are 00010 and bits 2..0 are the function select, 0 f1, 1 f1*, 2 f2,
3 f3, 4 f4, 5 f5, 6 f5*, 7 the combined command. -/
def Obligations.FunctionSelectIsTheOpcodesLowBits : Prop :=
  (∀ i ∈ fCommands, i.opcode.byte.extractLsb' 3 5 = 0b00010#5) ∧
  Opcode.f1.fsel = 0 ∧ Opcode.f1star.fsel = 1 ∧ Opcode.f2.fsel = 2 ∧ Opcode.f3.fsel = 3 ∧
  Opcode.f4.fsel = 4 ∧ Opcode.f5.fsel = 5 ∧ Opcode.f5star.fsel = 6 ∧ Opcode.f2345.fsel = 7

/-- R217: of all the checks of a frame the first that fails decides the status: empty frame, opcode, structure,
operand lengths, context; and when they all pass, the first request that is refused. -/
def Obligations.ChecksFailInOrder : Prop :=
  ∀ (s : State) (f : Frame) (rest : List HostEvent), s.commandPort = .frame f :: rest →
    let u := { s with commandPort := rest }
    (f = [] → step s = .next (emit u [0x04#8] [])) ∧
    (∀ b tail, f = b :: tail → (∀ o : Opcode, o.byte ≠ b) → step s = .next (emit u [0x03#8] [])) ∧
    ∀ (o : Opcode) (tail : List Byte), f = o.byte :: tail →
      ((¬ ∃ fs : List (List Byte), fs.length = o.operandLens.length ∧ (∀ d ∈ fs, d.length ≤ 255) ∧
          tail = fs.flatMap field) → step s = .next (emit u [0x04#8] [])) ∧
      ∀ fs : List (List Byte), fs.length = o.operandLens.length → (∀ d ∈ fs, d.length ≤ 255) →
        tail = fs.flatMap field →
        (fs.map List.length ≠ o.operandLens → step s = .next (emit u [0x01#8] [])) ∧
        (fs.map List.length = o.operandLens →
          (o ∈ contextOpcodes → ctxValid s = false → step s = .next (emit u [0x05#8] [])) ∧
          ((o ∈ contextOpcodes → ctxValid s = true) → ∀ t, step s = .next t →
            (∃ fields qs, Appends u t [okFrame fields] qs ∧
              ∀ x ∈ qs, ∃ b, cipherAnswer s.primitive x = .block b) ∨
            ∃ qs q, t = emit u [0x02#8] (qs ++ [q]) ∧ cipherAnswer s.primitive q = .cipherError ∧
              ∀ x ∈ qs, ∃ b, cipherAnswer s.primitive x = .block b))

/-- R80: the text of a well-formed command assembles to its frame; spacing and the digits' case are the model's
choice (log 18). -/
def Obligations.CommandTextAssemblesToItsFrame : Prop :=
  ∀ i : Instr, i.wellFormed = true → assemble (commandText i) = some (encode i)

/-! ## Responses and errors -/

/-- R78, R79, R211: every response ever emitted is legal; a step keeps it so. -/
def Obligations.StepKeepsResponsesLegal : Prop :=
  ∀ s t : State, ResponsesLegal s → step s = .next t → ResponsesLegal t

/-- The invariant of `StepKeepsResponsesLegal` holds after reset. -/
def Obligations.ResetResponsesAreLegal : Prop := ResponsesLegal State.reset

/-- R79: the `OK` response of each command has its length, every error response is one byte. -/
def Obligations.ResponseLengthsAreTheTables : Prop :=
  ∀ (i : Instr) (s t : State), exec i s = .next t →
    ∃ r : Frame, t.responsePort = s.responsePort ++ [r] ∧
      if r.head? = some 0x00#8 then
        r.length =
          match i with
          | .computeOpc _ _ => 18
          | .newCtxOp _ _ _ _ _ | .newCtxOpc _ _ _ _ _ | .setSqn _ | .setAmf _ | .discard => 1
          | .f1 | .f1star | .f2 => 10
          | .f3 | .f4 => 18
          | .f5 | .f5star => 8
          | .f2345 => 51
      else r.length = 1

/-- R218: a frame that ends in an error, of the decoder or of its command, writes no register, answers one
status byte, and its trace is empty but for `ERR_CIPHER`, where it is the answered requests and then the
failing one. -/
def Obligations.ErrorsChangeNothing : Prop :=
  ∀ (f : Frame) (s t : State) (r : Frame), runFrame f s = .next t → t.responsePort = s.responsePort ++ [r] →
    r.head? ≠ some 0x00#8 →
    SameRegisters s t ∧
    ((∃ e : Status, e ≠ .ok ∧ e ≠ .errCipher ∧ r = [e.byte] ∧ t.bindingTrace = s.bindingTrace) ∨
     (r = [0x02#8] ∧ ∃ qs q, t.bindingTrace = s.bindingTrace ++ qs ++ [q] ∧
        cipherAnswer s.primitive q = .cipherError ∧
        ∀ x ∈ qs, ∃ b, cipherAnswer s.primitive x = .block b))

/-- R219: after a frame that ended in an error, the core takes the next frame as if it had not been sent. -/
def Obligations.ErrorLeavesNextFrameUnaffected : Prop :=
  ∀ (s t : State) (f g : Frame) (r : Frame), runFrame f s = .next t →
    t.responsePort = s.responsePort ++ [r] → r.head? ≠ some 0x00#8 →
    SameRun s t (runFrame g s) (runFrame g t)

/-- R216: `ERR_NO_CONTEXT` is answered by exactly the commands that need a context, with well-formed operands,
when `CTX_VALID` is 0. -/
def Obligations.NoContextErrorExactly : Prop :=
  ∀ (i : Instr) (s : State),
    exec i s = .next (emit s [0x05#8] []) ↔
      ctxValid s = false ∧ (i ∈ fCommands ∨ (∃ q, q.length = 6 ∧ i = .setSqn q) ∨ (∃ a, a.length = 2 ∧ i = .setAmf a))

/-! ## The byte operations -/

/-- R133: `rotl(X, r)[j] = X[(j + r) mod 16]`; byte `i` of `X` moves to position `(i - r) mod 16`. -/
def Obligations.RotationIsLeftByBytes : Prop :=
  ∀ (x : Block) (r : Nat), r < 16 →
    (∀ j < 16, (rotl x r).byte j = x.byte ((j + r) % 16)) ∧
    (∀ i < 16, (rotl x r).byte ((i + 16 - r) % 16) = x.byte i)

/-- R134: rotation distributes over xor, rotations add, rotation by 8 swaps the halves and is its own inverse,
rotations by 4 and by 12 are each other's inverses. -/
def Obligations.RotationLaws : Prop :=
  (∀ (x y : Block) (r : Nat), rotl (bxor x y) r = bxor (rotl x r) (rotl y r)) ∧
  (∀ (x : Block) (a b : Nat), rotl (rotl x a) b = rotl x ((a + b) % 16)) ∧
  (∀ x : Block, rotl (rotl x 8) 8 = x ∧ slice 0 8 (rotl x 8) = slice 8 16 x ∧
    slice 8 16 (rotl x 8) = slice 0 8 x) ∧
  (∀ x : Block, rotl (rotl x 4) 12 = x ∧ rotl (rotl x 12) 4 = x)

/-- R135: `cbyte(c)` is zero but for byte 15, which is `c`; xoring it changes byte 15 only, and for `c = 0`
nothing. -/
def Obligations.ConstantEntersTheLastByte : Prop :=
  ∀ (y : Block) (c : Byte),
    (∀ i < 15, (cbyte c).byte i = 0x00#8) ∧ (cbyte c).byte 15 = c ∧
    (∀ i < 15, (bxor y (cbyte c)).byte i = y.byte i) ∧ (bxor y (cbyte c)).byte 15 = y.byte 15 ^^^ c ∧
    bxor y (cbyte 0x00#8) = y

/-- R150: `IN1[0:6] = IN1[8:14] = SQN` and `IN1[6:8] = IN1[14:16] = AMF`. -/
def Obligations.In1RepeatsSqnAndAmf : Prop :=
  ∀ (sqn : ByteString 6) (amf : ByteString 2),
    slice 0 6 (in1 sqn amf) = sqn ∧ slice 6 8 (in1 sqn amf) = amf ∧
    slice 8 14 (in1 sqn amf) = sqn ∧ slice 14 16 (in1 sqn amf) = amf

/-- R132, R136: with `A = TEMP` and `B = 0` the pipeline is the template
`OUT(r, c) = Encrypt(K, rotl(TEMP xor OPC, r) xor cbyte(c)) xor OPC`, in one request. -/
def Obligations.PipelineIsTheTemplate : Prop :=
  ∀ (p : Primitive) (ctx : Context) (temp e : Block) (r : Nat) (c : Byte),
    cipherAnswer p ⟨ctx.k, bxor (rotl (bxor temp ctx.opc) r) (cbyte c)⟩ = .block e →
    pipe p ctx temp zeroBlock r c =
      ⟨[⟨ctx.k, bxor (rotl (bxor temp ctx.opc) r) (cbyte c)⟩], .done (bxor e ctx.opc)⟩

/-! ## The commands -/

/-- R121: `COMPUTE_OPC`, with or without a context, responds with `Encrypt(K, OP) xor OP` and writes no
register. -/
def Obligations.ComputeOpcRespondsWithOpc : Prop :=
  FormatV 0x01#8 [16, 16] ∧
  (∀ op k : Block, encode (.computeOpc op.bytes k.bytes) = 0x01#8 :: 0x10#8 :: op.bytes ++ 0x10#8 :: k.bytes) ∧
  ∀ (op k : Block) (s : State),
    (cipherAnswer s.primitive ⟨k, op⟩ = .cipherError →
      exec (.computeOpc op.bytes k.bytes) s = .next (emit s [0x02#8] [⟨k, op⟩])) ∧
    ∀ e, cipherAnswer s.primitive ⟨k, op⟩ = .block e →
      exec (.computeOpc op.bytes k.bytes) s =
        .next (emit s (0x00#8 :: 0x10#8 :: (bxor e op).bytes) [⟨k, op⟩])

/-- R190: `NEW_CTX_OP` derives OPc in one request and then writes all five registers and `CTX_VALID`; on an
error nothing is written and an old context is kept (92_eei_decisions.md D7, log 16). -/
def Obligations.NewCtxOpDerivesOpcAndLoads : Prop :=
  FormatV 0x02#8 [16, 16, 16, 6, 2] ∧
  (∀ (k op rand : Block) (sqn : ByteString 6) (amf : ByteString 2),
    encode (.newCtxOp k.bytes op.bytes rand.bytes sqn.bytes amf.bytes) =
      0x02#8 :: 0x10#8 :: k.bytes ++ 0x10#8 :: op.bytes ++ 0x10#8 :: rand.bytes ++ 0x06#8 :: sqn.bytes ++ 0x02#8 :: amf.bytes) ∧
  ∀ (k op rand : Block) (sqn : ByteString 6) (amf : ByteString 2) (s : State),
    (cipherAnswer s.primitive ⟨k, op⟩ = .cipherError →
      exec (.newCtxOp k.bytes op.bytes rand.bytes sqn.bytes amf.bytes) s =
        .next (emit s [0x02#8] [⟨k, op⟩])) ∧
    ∀ e, cipherAnswer s.primitive ⟨k, op⟩ = .block e →
      exec (.newCtxOp k.bytes op.bytes rand.bytes sqn.bytes amf.bytes) s =
        .next { emit s [0x00#8] [⟨k, op⟩] with slot := .held ⟨k, bxor e op, rand, sqn, amf⟩ }

/-- R191: `NEW_CTX_OPC` takes OPc as it is, makes no request, and writes all five registers and `CTX_VALID`. -/
def Obligations.NewCtxOpcLoadsAsGiven : Prop :=
  FormatV 0x03#8 [16, 16, 16, 6, 2] ∧
  (∀ (k opc rand : Block) (sqn : ByteString 6) (amf : ByteString 2),
    encode (.newCtxOpc k.bytes opc.bytes rand.bytes sqn.bytes amf.bytes) =
      0x03#8 :: 0x10#8 :: k.bytes ++ 0x10#8 :: opc.bytes ++ 0x10#8 :: rand.bytes ++ 0x06#8 :: sqn.bytes ++ 0x02#8 :: amf.bytes) ∧
  ∀ (k opc rand : Block) (sqn : ByteString 6) (amf : ByteString 2) (s : State),
    exec (.newCtxOpc k.bytes opc.bytes rand.bytes sqn.bytes amf.bytes) s =
      .next { emit s [0x00#8] [] with slot := .held ⟨k, opc, rand, sqn, amf⟩ }

/-- R192: `SET_SQN` writes `ctx.SQN` only; the length is checked by the decoder, before `CTX_VALID`. -/
def Obligations.SetSqnWritesSqnOnly : Prop :=
  FormatV 0x04#8 [6] ∧
  (∀ sqn : ByteString 6, encode (.setSqn sqn.bytes) = 0x04#8 :: 0x06#8 :: sqn.bytes) ∧
  ∀ (sqn : ByteString 6) (s : State),
    (s.slot = .noContext → exec (.setSqn sqn.bytes) s = .next (emit s [0x05#8] [])) ∧
    ∀ c, s.slot = .held c →
      exec (.setSqn sqn.bytes) s =
        .next { emit s [0x00#8] [] with slot := .held ⟨c.k, c.opc, c.rand, sqn, c.amf⟩ }

/-- R193: `SET_AMF` writes `ctx.AMF` only; the length is checked by the decoder, before `CTX_VALID`. -/
def Obligations.SetAmfWritesAmfOnly : Prop :=
  FormatV 0x05#8 [2] ∧
  (∀ amf : ByteString 2, encode (.setAmf amf.bytes) = 0x05#8 :: 0x02#8 :: amf.bytes) ∧
  ∀ (amf : ByteString 2) (s : State),
    (s.slot = .noContext → exec (.setAmf amf.bytes) s = .next (emit s [0x05#8] [])) ∧
    ∀ c, s.slot = .held c →
      exec (.setAmf amf.bytes) s =
        .next { emit s [0x00#8] [] with slot := .held ⟨c.k, c.opc, c.rand, c.sqn, amf⟩ }

/-- R194: `DISCARD` leaves no context, the slot as after reset; without a context it changes no register. -/
def Obligations.DiscardEndsTheContext : Prop :=
  FormatN 0x06#8 .discard ∧
  (∀ s : State, exec .discard s = .next { emit s [0x00#8] [] with slot := State.reset.slot }) ∧
  (∀ s : State, s.slot = .noContext → exec .discard s = .next (emit s [0x00#8] []))

/-- R151: `F1` responds with MAC_A = OUT1[0:8]. -/
def Obligations.F1RespondsWithMacA : Prop :=
  FormatN 0x10#8 .f1 ∧
  SingleFunctionRule .f1
    (fun c temp => bxor (rotl (bxor (in1 c.sqn c.amf) c.opc) 8) temp)
    (fun c e => 0x00#8 :: 0x08#8 :: (slice 0 8 (bxor e c.opc)).bytes)

/-- R152: `F1STAR` responds with MAC_S = OUT1[8:16]. -/
def Obligations.F1starRespondsWithMacS : Prop :=
  FormatN 0x11#8 .f1star ∧
  SingleFunctionRule .f1star
    (fun c temp => bxor (rotl (bxor (in1 c.sqn c.amf) c.opc) 8) temp)
    (fun c e => 0x00#8 :: 0x08#8 :: (slice 8 16 (bxor e c.opc)).bytes)

/-- R163: `F2` responds with RES = OUT2[8:16]. -/
def Obligations.F2RespondsWithRes : Prop :=
  FormatN 0x12#8 .f2 ∧
  SingleFunctionRule .f2
    (fun c temp => bxor (bxor temp c.opc) (cbyte 0x01#8))
    (fun c e => 0x00#8 :: 0x08#8 :: (slice 8 16 (bxor e c.opc)).bytes)

/-- R164: `F3` responds with CK = OUT3[0:16]. -/
def Obligations.F3RespondsWithCk : Prop :=
  FormatN 0x13#8 .f3 ∧
  SingleFunctionRule .f3
    (fun c temp => bxor (rotl (bxor temp c.opc) 4) (cbyte 0x02#8))
    (fun c e => 0x00#8 :: 0x10#8 :: (bxor e c.opc).bytes)

/-- R165: `F4` responds with IK = OUT4[0:16]. -/
def Obligations.F4RespondsWithIk : Prop :=
  FormatN 0x14#8 .f4 ∧
  SingleFunctionRule .f4
    (fun c temp => bxor (rotl (bxor temp c.opc) 8) (cbyte 0x04#8))
    (fun c e => 0x00#8 :: 0x10#8 :: (bxor e c.opc).bytes)

/-- R166: `F5` responds with AK = OUT2[0:6]. -/
def Obligations.F5RespondsWithAk : Prop :=
  FormatN 0x15#8 .f5 ∧
  SingleFunctionRule .f5
    (fun c temp => bxor (bxor temp c.opc) (cbyte 0x01#8))
    (fun c e => 0x00#8 :: 0x06#8 :: (slice 0 6 (bxor e c.opc)).bytes)

/-- R181: `F5STAR` responds with AK* = OUT5[0:6]. -/
def Obligations.F5starRespondsWithAkStar : Prop :=
  FormatN 0x16#8 .f5star ∧
  SingleFunctionRule .f5star
    (fun c temp => bxor (rotl (bxor temp c.opc) 12) (cbyte 0x08#8))
    (fun c e => 0x00#8 :: 0x06#8 :: (slice 0 6 (bxor e c.opc)).bytes)

/-- R167: `F2345` makes four requests and responds with RES, CK, IK, AK; on `CipherError` nothing is
returned. -/
def Obligations.F2345RespondsWithAllFour : Prop :=
  FormatN 0x17#8 .f2345 ∧
  ∀ s : State,
    (s.slot = .noContext → exec .f2345 s = .next (emit s [0x05#8] [])) ∧
    ∀ c, s.slot = .held c →
      let q1 := tempRequest c
      (cipherAnswer s.primitive q1 = .cipherError → exec .f2345 s = .next (emit s [0x02#8] [q1])) ∧
      ∀ temp, cipherAnswer s.primitive q1 = .block temp →
        let x := bxor temp c.opc
        let q2 : Request := ⟨c.k, bxor x (cbyte 0x01#8)⟩
        let q3 : Request := ⟨c.k, bxor (rotl x 4) (cbyte 0x02#8)⟩
        let q4 : Request := ⟨c.k, bxor (rotl x 8) (cbyte 0x04#8)⟩
        (cipherAnswer s.primitive q2 = .cipherError → exec .f2345 s = .next (emit s [0x02#8] [q1, q2])) ∧
        ∀ e2, cipherAnswer s.primitive q2 = .block e2 →
          (cipherAnswer s.primitive q3 = .cipherError → exec .f2345 s = .next (emit s [0x02#8] [q1, q2, q3])) ∧
          ∀ e3, cipherAnswer s.primitive q3 = .block e3 →
            (cipherAnswer s.primitive q4 = .cipherError →
              exec .f2345 s = .next (emit s [0x02#8] [q1, q2, q3, q4])) ∧
            ∀ e4, cipherAnswer s.primitive q4 = .block e4 →
              exec .f2345 s = .next (emit s
                (0x00#8 :: 0x08#8 :: (slice 8 16 (bxor e2 c.opc)).bytes ++ 0x10#8 :: (bxor e3 c.opc).bytes ++
                  0x10#8 :: (bxor e4 c.opc).bytes ++ 0x06#8 :: (slice 0 6 (bxor e2 c.opc)).bytes)
                [q1, q2, q3, q4])

/-- R168: the four fields of an `F2345` response are the fields `F2`, `F3`, `F4` and `F5` return on the same
context; four requests against eight. -/
def Obligations.CombinedEqualsSingleFunctions : Prop :=
  ∀ (s t : State) (r : Frame) (res ck ik ak : List Byte),
    exec .f2345 s = .next t → t.responsePort = s.responsePort ++ [r] →
    readResponse 4 r = some (.ok, [res, ck, ik, ak]) →
    ∃ t2 t3 t4 t5 q q2 q3 q4 q5,
      exec .f2 s = .next t2 ∧ Appends s t2 [okFrame [res]] q2 ∧
      exec .f3 s = .next t3 ∧ Appends s t3 [okFrame [ck]] q3 ∧
      exec .f4 s = .next t4 ∧ Appends s t4 [okFrame [ik]] q4 ∧
      exec .f5 s = .next t5 ∧ Appends s t5 [okFrame [ak]] q5 ∧
      t.bindingTrace = s.bindingTrace ++ q ∧ q.length = 4 ∧ (q2 ++ q3 ++ q4 ++ q5).length = 8

/-! ## Frames and whole-machine rules -/

/-- R27, R55: the f-commands and `COMPUTE_OPC` change no register, no flag and nothing at the command port;
they append one response and their requests. -/
def Obligations.ComputingCommandsWriteNoRegister : Prop :=
  ∀ (i : Instr) (s t : State), (i ∈ fCommands ∨ ∃ op k, i = .computeOpc op k) → exec i s = .next t →
    SameRegisters s t ∧ ∃ r qs, Appends s t [r] qs

/-- R24, R25, R26, R27: the write table: within a context's lifetime `ctx.K`, `ctx.OPC` and `ctx.RAND` keep
their values, `ctx.SQN` is written by `SET_SQN` only and `ctx.AMF` by `SET_AMF` only; what is at the command
port and the primitive are never written. -/
def Obligations.ContextRegistersAreWrittenAsTabled : Prop :=
  ∀ (i : Instr) (s t : State), exec i s = .next t →
    t.commandPort = s.commandPort ∧ t.primitive = s.primitive ∧ (∃ r qs, Appends s t [r] qs) ∧
    (i.opcode = .newCtxOp ∨ i.opcode = .newCtxOpc ∨ i.opcode = .discard ∨ t.slot = s.slot ∨
      ∃ c c', s.slot = .held c ∧ t.slot = .held c' ∧ c'.k = c.k ∧ c'.opc = c.opc ∧ c'.rand = c.rand ∧
        ((i = .setSqn c'.sqn.bytes ∧ c'.amf = c.amf) ∨ (i = .setAmf c'.amf.bytes ∧ c'.sqn = c.sqn)))

/-- R195: the lifecycle: a successful `NEW_CTX_OP` or `NEW_CTX_OPC` leads to `CTX_VALID = 1`, a successful
`DISCARD` and reset lead to 0, every other command and every error leave it where it is. -/
def Obligations.ContextLifecycle : Prop :=
  (∀ (i : Instr) (s t : State) (r : Frame), exec i s = .next t → t.responsePort = s.responsePort ++ [r] →
    ctxValid t =
      if r.head? = some 0x00#8 ∧ (i.opcode = .newCtxOp ∨ i.opcode = .newCtxOpc) then true
      else if r.head? = some 0x00#8 ∧ i.opcode = .discard then false
      else ctxValid s) ∧
  (∀ (f : Frame) (e : Status) (s t : State), decode f = .error e → runFrame f s = .next t →
    ctxValid t = ctxValid s) ∧
  (∀ (s t : State) (e : HostEvent) (rest : List HostEvent), s.commandPort = e :: rest → (∀ f, e ≠ .frame f) →
    step s = .next t → ctxValid t = false)

/-- R105: the number of requests of a successful command is the table's. -/
def Obligations.RequestCountsAreTheTables : Prop :=
  ∀ (i : Instr) (s t : State) (r : Frame), exec i s = .next t → t.responsePort = s.responsePort ++ [r] →
    r.head? = some 0x00#8 →
    t.bindingTrace.length = s.bindingTrace.length +
      match i with
      | .computeOpc _ _ | .newCtxOp _ _ _ _ _ => 1
      | .newCtxOpc _ _ _ _ _ | .setSqn _ | .setAmf _ | .discard => 0
      | .f1 | .f1star | .f2 | .f3 | .f4 | .f5 | .f5star => 2
      | .f2345 => 4

/-- R106: every request of `NEW_CTX_OP` and `COMPUTE_OPC` uses the `K` operand as key, every request of an
f-command `ctx.K`; no other command makes a request. -/
def Obligations.RequestsUseTheRightKey : Prop :=
  ∀ (i : Instr) (s : State), ∀ q ∈ issuedBy s (exec i s),
      (∃ op, i = .computeOpc op q.key.bytes) ∨ (∃ op rand sqn amf, i = .newCtxOp q.key.bytes op rand sqn amf) ∨
      (i ∈ fCommands ∧ ctxK s = some q.key)

/-- R131: the first request of every f-command is the TEMP request of its context, made anew each time. -/
def Obligations.FunctionCommandsBeginWithTemp : Prop :=
  ∀ (i : Instr) (s : State) (c : Context), i ∈ fCommands → s.slot = .held c →
    ∃ qs, issuedBy s (exec i s) = tempRequest c :: qs

/-- R141: the f-commands are functions of the context, and all but `F1` and `F1STAR` of K, OPc and RAND
alone. -/
def Obligations.OnlyF1DependsOnSqnAndAmf : Prop :=
  (∀ (i : Instr) (s t : State), i ∈ fCommands → s.slot = t.slot → s.primitive = t.primitive →
    SameAnswer s t (exec i s) (exec i t)) ∧
  ∀ (i : Instr) (s t : State) (c : Context) (sqn : ByteString 6) (amf : ByteString 2),
    i ∈ fCommands → i ≠ .f1 → i ≠ .f1star →
    s.slot = .held c → t.slot = .held ⟨c.k, c.opc, c.rand, sqn, amf⟩ → s.primitive = t.primitive →
    SameAnswer s t (exec i s) (exec i t)

/-- R27, R221: no command but the f-commands tells the host anything of the context registers: its responses
and requests depend on `CTX_VALID` at most. -/
def Obligations.ContextCommandsReadNothingBack : Prop :=
  ∀ (i : Instr) (s t : State), i ∉ fCommands → s.primitive = t.primitive →
    (ctxValid s = ctxValid t ∨ ∃ op k, i = .computeOpc op k) →
    SameAnswer s t (exec i s) (exec i t)

/-- R122: `NEW_CTX_OP` and `COMPUTE_OPC` followed by `NEW_CTX_OPC` leave the same context, and every later run of
frames answers the same after either. -/
def Obligations.OpcSuppliedOrDerivedIsTheSame : Prop :=
  ∀ (k op rand : Block) (sqn : ByteString 6) (amf : ByteString 2) (s : State) (e : Block),
    cipherAnswer s.primitive ⟨k, op⟩ = .block e →
    ∃ derived computed supplied : State, ∃ opc : Block,
      exec (.newCtxOp k.bytes op.bytes rand.bytes sqn.bytes amf.bytes) s = .next derived ∧
      exec (.computeOpc op.bytes k.bytes) s = .next computed ∧
      computed.responsePort = s.responsePort ++ [okFrame [opc.bytes]] ∧
      exec (.newCtxOpc k.bytes opc.bytes rand.bytes sqn.bytes amf.bytes) computed = .next supplied ∧
      derived.slot = .held ⟨k, opc, rand, sqn, amf⟩ ∧ SameCore derived supplied ∧
      ∀ n, SameRun derived supplied (core.run n derived) (core.run n supplied)

/-- R32: nothing the host or the binding sees of a run depends on anything but the context, the primitive and
the frames: two cores alike in those run alike for ever. -/
def Obligations.RunsDependOnContextAndFramesOnly : Prop :=
  ∀ (n : Nat) (s t : State), SameCore s t → SameRun s t (core.run n s) (core.run n t)

/-- R56: the core takes the frames in the order they arrive, and emits exactly one response for each, provided
the primitive answers (R107). -/
def Obligations.OneResponsePerFrame : Prop :=
  ∀ (frames : List Frame) (s : State) (rest : List HostEvent), PrimitiveAnswers s.primitive →
    s.commandPort = frames.map HostEvent.frame ++ rest →
    ∃ t rs qs, core.run frames.length s = .next t ∧ t.commandPort = rest ∧ Appends s t rs qs ∧
      rs.length = frames.length

/-- R103: no step changes the primitive: the same request has the same answer whenever it is made. That the
primitive stands in the state is the model's choice (log 2). -/
def Obligations.StepKeepsThePrimitive : Prop :=
  ∀ s t : State, step s = .next t →
    t.primitive = s.primitive ∧ ∀ q, cipherAnswer t.primitive q = cipherAnswer s.primitive q

/-- R107, R245: provided the primitive answers, every step ends in a next state. -/
def Obligations.StepEndsWhenThePrimitiveAnswers : Prop :=
  ∀ s : State, PrimitiveAnswers s.primitive → ∃ t, step s = .next t

/-- R107: a command stops at a request the primitive never answers, and only there; that stop is the fault of
log 3. Second clause: the stop, and the request it is at is the last. Third clause: whatever requests a command
makes with one primitive, with a primitive that answers those before `q` alike and never answers `q` it stops at
`q`. Fourth and fifth clause: the first request of each command that makes any. -/
def Obligations.OnlyASilentPrimitiveStops : Prop :=
  (∀ (i : Instr) (s : State) (x : Refusal), exec i s ≠ .refused x) ∧
  (∀ (i : Instr) (s : State) (r : Fault), exec i s = .fault r →
    ∃ qs q, r = .primitiveSilent (qs ++ [q]) ∧ cipherAnswer s.primitive q = .noAnswer ∧
      ∀ x ∈ qs, ∃ b, cipherAnswer s.primitive x = .block b) ∧
  (∀ (i : Instr) (s : State) (p : Primitive) (qs : List Request) (q : Request) (more : List Request),
    issuedBy s (exec i s) = qs ++ q :: more → (∀ x ∈ qs, cipherAnswer p x = cipherAnswer s.primitive x) →
    cipherAnswer p q = .noAnswer →
    exec i { s with primitive := p } = .fault (.primitiveSilent (qs ++ [q]))) ∧
  (∀ (op k rand : Block) (sqn : ByteString 6) (amf : ByteString 2) (s : State),
    cipherAnswer s.primitive ⟨k, op⟩ = .noAnswer →
    exec (.computeOpc op.bytes k.bytes) s = .fault (.primitiveSilent [⟨k, op⟩]) ∧
    exec (.newCtxOp k.bytes op.bytes rand.bytes sqn.bytes amf.bytes) s = .fault (.primitiveSilent [⟨k, op⟩])) ∧
  ∀ (i : Instr) (s : State) (c : Context), i ∈ fCommands → s.slot = .held c →
    cipherAnswer s.primitive (tempRequest c) = .noAnswer →
    exec i s = .fault (.primitiveSilent [tempRequest c])

/-- R102, R213: with the AES-128 primitive of annex A `ERR_CIPHER` cannot occur, and every command ends. -/
def Obligations.AesNeverRaisesCipherError : Prop :=
  ∀ (i : Instr) (s : State), s.primitive = .aes128 →
    ∃ t r, exec i s = .next t ∧ t.responsePort = s.responsePort ++ [r] ∧ r ≠ [0x02#8]

/-! ## AES-128 (annex A, which the spec marks as general knowledge, log 9) -/

/-- R116: for every key, encryption is a bijection on 16-byte strings. -/
def Obligations.AesIsAPermutationForEachKey : Prop :=
  ∀ key : Block, Function.Bijective (aesEncrypt key)

/-- R116: the example of the rule. -/
def Obligations.AesExampleBlock : Prop :=
  (aesEncrypt
    ⟨[0x00#8, 0x01#8, 0x02#8, 0x03#8, 0x04#8, 0x05#8, 0x06#8, 0x07#8, 0x08#8, 0x09#8, 0x0a#8, 0x0b#8, 0x0c#8, 0x0d#8, 0x0e#8, 0x0f#8], rfl⟩
    ⟨[0x00#8, 0x11#8, 0x22#8, 0x33#8, 0x44#8, 0x55#8, 0x66#8, 0x77#8, 0x88#8, 0x99#8, 0xaa#8, 0xbb#8, 0xcc#8, 0xdd#8, 0xee#8, 0xff#8], rfl⟩).bytes =
    [0x69#8, 0xc4#8, 0xe0#8, 0xd8#8, 0x6a#8, 0x7b#8, 0x04#8, 0x30#8, 0xd8#8, 0xcd#8, 0xb7#8, 0x80#8, 0x70#8, 0xb4#8, 0xc5#8, 0x5a#8]

/-- R111: the table is the affine map of the multiplicative inverse in GF(2^8), and `SubBytes` applies it to
every byte. -/
def Obligations.SboxIsTheAffineInverse : Prop :=
  (∀ a : Byte, ∃ b : Byte, ((a = 0 ∧ b = 0) ∨ gfMul a b = 1) ∧
    sbox a = b ^^^ b.rotateLeft 1 ^^^ b.rotateLeft 2 ^^^ b.rotateLeft 3 ^^^ b.rotateLeft 4 ^^^ 0x63#8) ∧
  (∀ (x : Block), ∀ i < 16, (subBytes x).byte i = sbox (x.byte i))

/-! ## Terms that no frame decodes to -/

/-- The model's choice (log 13): `exec` of a command with an operand of another length answers `ERR_LENGTH`
before anything else, in every state, as a frame with such an operand does (R212). -/
def Obligations.IllFormedOperandsAnswerErrLength : Prop :=
  ∀ (i : Instr) (s : State), i.wellFormed = false → exec i s = .next (emit s [0x01#8] [])
end

