-- ==== Sys2Proof/Laws/Bytes.lean ====
section
/-! SUPPORT. Laws of byte strings: reading a byte of each operation, extensionality, and the algebra of xor. -/

namespace Sys2Proof.Laws

open Sys2Proof.Machine

variable {n : Nat}

@[ext] theorem byteString_ext_bytes {x y : ByteString n} (h : x.bytes = y.bytes) : x = y := by
  cases x; cases y; cases h; rfl

@[simp] theorem byte_tabulate {f : Nat → Byte} {i : Nat} (h : i < n) :
    (ByteString.tabulate n f).byte i = f i := by
  simp [ByteString.tabulate, ByteString.byte, h]

/-- Two byte strings with the same bytes are equal. -/
theorem byteString_ext {x y : ByteString n} (h : ∀ i < n, x.byte i = y.byte i) : x = y := by
  apply byteString_ext_bytes
  apply List.ext_getElem (by rw [x.len, y.len])
  intro i hx hy
  have := h i (by rw [← x.len]; exact hx)
  simpa [ByteString.byte, List.getD_eq_getElem?_getD, hx, hy] using this

@[simp] theorem byte_bxor {a b : ByteString n} {i : Nat} (h : i < n) :
    (bxor a b).byte i = a.byte i ^^^ b.byte i := by simp [bxor, h]

@[simp] theorem byte_slice {x : ByteString n} {lo hi i : Nat} (h : i < hi - lo) :
    (slice lo hi x).byte i = x.byte (lo + i) := by simp [slice, h]

@[simp] theorem byte_rotl {x : Block} {r i : Nat} (h : i < 16) :
    (rotl x r).byte i = x.byte ((i + r) % 16) := by simp [rotl, h]

@[simp] theorem byte_cbyte {c : Byte} {i : Nat} (h : i < 16) :
    (cbyte c).byte i = if i = 15 then c else 0 := by simp [cbyte, h]

@[simp] theorem byte_zeroBlock {i : Nat} (h : i < 16) : zeroBlock.byte i = 0 := by simp [zeroBlock, h]

@[simp] theorem length_slice {x : ByteString n} {lo hi : Nat} :
    (slice lo hi x).bytes.length = hi - lo := (slice lo hi x).len

@[simp] theorem length_bytes {x : ByteString n} : x.bytes.length = n := x.len

theorem bxor_comm (a b : ByteString n) : bxor a b = bxor b a :=
  byteString_ext fun i h => by simp [h, BitVec.xor_comm]

theorem bxor_assoc (a b c : ByteString n) : bxor (bxor a b) c = bxor a (bxor b c) :=
  byteString_ext fun i h => by simp [h, BitVec.xor_assoc]

@[simp] theorem bxor_self_right (a b : ByteString n) : bxor (bxor a b) b = a :=
  byteString_ext fun i h => by simp [h]

@[simp] theorem bxor_zeroBlock (a : Block) : bxor a zeroBlock = a :=
  byteString_ext fun i h => by simp [h]

@[simp] theorem cbyte_zero : cbyte 0x00#8 = zeroBlock :=
  byteString_ext fun i h => by simp [h]

@[simp] theorem rotl_zero (x : Block) : rotl x 0 = x :=
  byteString_ext fun i h => by simp [h, Nat.mod_eq_of_lt h]

@[simp] theorem slice_all (x : Block) : slice 0 16 x = x :=
  byteString_ext fun i h => by
    have h' : i < 16 - 0 := h
    rw [byte_slice h', Nat.zero_add]

/-- The one thing `sized?` does: it takes exactly the right length. -/
theorem sized?_eq_some {l : List Byte} {x : ByteString n} : sized? n l = some x ↔ l = x.bytes := by
  unfold sized?
  split
  · rename_i h
    constructor
    · intro e; cases e; rfl
    · rintro rfl; rfl
  · rename_i h
    constructor
    · intro e; cases e
    · intro e; exact absurd (by rw [e, x.len]) h

@[simp] theorem sized?_bytes (x : ByteString n) : sized? n x.bytes = some x := sized?_eq_some.2 rfl

theorem sized?_eq_none {l : List Byte} : sized? n l = none ↔ l.length ≠ n := by
  simp [sized?]

end Sys2Proof.Laws
end

