-- ==== Sys2Proof/Laws/Decode.lean ====
section
/-! SUPPORT. Laws of the opcode map, the fields of a frame and the parts of a command. -/

namespace Sys2Proof.Laws

@[simp] theorem ofByte?_byte (o : Opcode) : Opcode.ofByte? o.byte = some o := by cases o <;> decide

theorem ofByte?_eq_some {b : Byte} {o : Opcode} (h : Opcode.ofByte? b = some o) : b = o.byte := by
  have := List.find?_some h
  exact (beq_iff_eq.1 this).symm

theorem mem_all (o : Opcode) : o ∈ Opcode.all := by cases o <;> decide

theorem ofByte?_eq_none {b : Byte} : Opcode.ofByte? b = none ↔ ∀ o : Opcode, o.byte ≠ b := by
  simp [Opcode.ofByte?, List.find?_eq_none, mem_all]

/-- Splitting the fields that were laid one after another gives them back. -/
theorem splitFields_flatMap_field {fs : List (List Byte)} (h : ∀ d ∈ fs, d.length ≤ 255) :
    splitFields fs.length (fs.flatMap field) = some fs := by
  induction fs with
  | nil => rfl
  | cons d ds ih =>
    have hd : d.length ≤ 255 := h d (by simp)
    have hn : (BitVec.ofNat 8 d.length).toNat = d.length := by
      simp [Nat.mod_eq_of_lt (show d.length < 256 by omega)]
    simp only [List.flatMap_cons, field, List.length_cons, List.cons_append, splitFields, hn]
    have := ih (fun x hx => h x (by simp [hx]))
    simp [this]

/-- A split frame is its fields laid one after another. -/
theorem splitFields_eq_some {n : Nat} {l : List Byte} {fs : List (List Byte)}
    (h : splitFields n l = some fs) :
    fs.length = n ∧ (∀ d ∈ fs, d.length ≤ 255) ∧ l = fs.flatMap field := by
  induction n generalizing l fs with
  | zero =>
    cases l with
    | nil => simp [splitFields] at h; subst h; simp
    | cons a as => simp [splitFields] at h
  | succ n ih =>
    cases l with
    | nil => simp [splitFields] at h
    | cons a rest =>
      simp only [splitFields] at h
      split at h
      · rename_i ha
        simp only [Option.map_eq_some_iff] at h
        obtain ⟨gs, hgs, rfl⟩ := h
        obtain ⟨h1, h2, h3⟩ := ih hgs
        have hlt : a.toNat < 256 := a.isLt
        refine ⟨by simp [h1], ?_, ?_⟩
        · intro d hd
          rcases List.mem_cons.1 hd with rfl | hd
          · simp; omega
          · exact h2 d hd
        · simp only [List.flatMap_cons, field, List.length_take, Nat.min_eq_left ha, BitVec.ofNat_toNat,
            BitVec.setWidth_eq, List.cons_append, ← h3, List.take_append_drop]
      · simp at h

/-- The parts of a command determine it. -/
@[simp] theorem ofParts?_parts (i : Instr) : Instr.ofParts? i.opcode i.operands = some i := by cases i <;> rfl

theorem ofParts?_eq_some {o : Opcode} {fs : List (List Byte)} {i : Instr}
    (h : Instr.ofParts? o fs = some i) : o = i.opcode ∧ fs = i.operands := by
  unfold Instr.ofParts? at h
  split at h <;> first | (cases h; exact ⟨rfl, rfl⟩) | (exact absurd h (by simp))

/-- With the right number of fields there is a command: the decoder's count check never fails after the
walk of the fields. -/
theorem ofParts?_isSome {o : Opcode} {fs : List (List Byte)} (h : fs.length = o.operandLens.length) :
    (Instr.ofParts? o fs).isSome := by
  cases o <;> simp only [Opcode.operandLens, List.length_cons, List.length_nil, Nat.zero_add] at h <;>
    (rcases fs with _ | ⟨a, _ | ⟨b, _ | ⟨c, _ | ⟨d, _ | ⟨e, _ | ⟨g, fs⟩⟩⟩⟩⟩⟩) <;>
    simp_all [Instr.ofParts?]

/-- Well-formedness is the operand table of the decoder. -/
theorem wellFormed_iff (i : Instr) :
    i.wellFormed = true ↔ i.operands.map List.length = i.opcode.operandLens := by
  cases i <;> simp [Instr.wellFormed, Instr.operands, Instr.opcode, Opcode.operandLens, Config.keyLen,
    Config.opLen, Config.opcLen, Config.randLen, Config.sqnLen, Config.amfLen, and_assoc]

/-- The number of operands is the opcode's. -/
theorem operands_length (i : Instr) : i.operands.length = i.opcode.operandLens.length := by cases i <;> rfl

/-- All that decoding a frame can answer. -/
theorem decode_cases (f : Frame) :
    (f = [] ∧ decode f = .error .errFrame) ∨
    (∃ b rest, f = b :: rest ∧ Opcode.ofByte? b = none ∧ decode f = .error .errOpcode) ∨
    (∃ o rest, f = Opcode.byte o :: rest ∧ splitFields o.operandLens.length rest = none ∧
      decode f = .error .errFrame) ∨
    (∃ i : Instr, f = encode i ∧ (∀ d ∈ i.operands, d.length ≤ 255) ∧
      decode f = if i.wellFormed then .ok i else .error .errLength) := by
  rcases f with _ | ⟨b, rest⟩
  · exact .inl ⟨rfl, rfl⟩
  right
  cases hb : Opcode.ofByte? b with
  | none => exact .inl ⟨b, rest, rfl, hb, by simp [decode, hb]⟩
  | some o =>
    right
    obtain rfl := ofByte?_eq_some hb
    cases hs : splitFields o.operandLens.length rest with
    | none => exact .inl ⟨o, rest, rfl, hs, by simp [decode, hs]⟩
    | some fs =>
      right
      obtain ⟨h1, h2, rfl⟩ := splitFields_eq_some hs
      obtain ⟨i, hi⟩ := Option.isSome_iff_exists.1 (ofParts?_isSome h1)
      obtain ⟨rfl, rfl⟩ := ofParts?_eq_some hi
      refine ⟨i, rfl, h2, ?_⟩
      simp only [decode, hb, hs, hi]
      by_cases hw : i.operands.map List.length = i.opcode.operandLens
      · simp [hw, (wellFormed_iff i).2 hw]
      · have : ¬ i.wellFormed = true := fun h => hw ((wellFormed_iff i).1 h)
        simp [hw, this]

end Sys2Proof.Laws
end

