-- ==== Sys2Proof/Laws/State.lean ====
section
/-! SUPPORT. One lemma per field per update of the state. -/

namespace Sys2Proof.Laws

open Sys2Proof.Machine

variable (s : State) (qs : List Request) (e : Effect) (st : Status) (f : Frame) (n nbits w : Nat)

@[simp] theorem respondOk_slot : (respondOk s qs e).slot = e.slot := rfl
@[simp] theorem respondOk_commandPort : (respondOk s qs e).commandPort = s.commandPort := rfl
@[simp] theorem respondOk_responsePort :
    (respondOk s qs e).responsePort = s.responsePort ++ [okFrame e.fields] := rfl
@[simp] theorem respondOk_bindingTrace : (respondOk s qs e).bindingTrace = s.bindingTrace ++ qs := rfl
@[simp] theorem respondOk_primitive : (respondOk s qs e).primitive = s.primitive := rfl

@[simp] theorem raiseStatus_slot : (raiseStatus s qs st).slot = s.slot := rfl
@[simp] theorem raiseStatus_commandPort : (raiseStatus s qs st).commandPort = s.commandPort := rfl
@[simp] theorem raiseStatus_responsePort :
    (raiseStatus s qs st).responsePort = s.responsePort ++ [errorFrame st] := rfl
@[simp] theorem raiseStatus_bindingTrace : (raiseStatus s qs st).bindingTrace = s.bindingTrace ++ qs := rfl
@[simp] theorem raiseStatus_primitive : (raiseStatus s qs st).primitive = s.primitive := rfl

@[simp] theorem resetCore_slot : (resetCore s).slot = .noContext := rfl
@[simp] theorem resetCore_commandPort : (resetCore s).commandPort = s.commandPort := rfl
@[simp] theorem resetCore_responsePort : (resetCore s).responsePort = s.responsePort := rfl
@[simp] theorem resetCore_bindingTrace : (resetCore s).bindingTrace = s.bindingTrace := rfl
@[simp] theorem resetCore_primitive : (resetCore s).primitive = s.primitive := rfl

@[simp] theorem abandonCommand_slot : (abandonCommand f n s).slot = .noContext := rfl
@[simp] theorem abandonCommand_commandPort : (abandonCommand f n s).commandPort = s.commandPort := rfl
@[simp] theorem abandonCommand_responsePort : (abandonCommand f n s).responsePort = s.responsePort := rfl
@[simp] theorem abandonCommand_bindingTrace :
    (abandonCommand f n s).bindingTrace = s.bindingTrace ++ (issuedBy s (runFrame f s)).take n := rfl
@[simp] theorem abandonCommand_primitive : (abandonCommand f n s).primitive = s.primitive := rfl

@[simp] theorem offerFrame_slot : (offerFrame f s).slot = s.slot := rfl
@[simp] theorem offerFrame_commandPort : (offerFrame f s).commandPort = .frame f :: s.commandPort := rfl
@[simp] theorem offerFrame_responsePort : (offerFrame f s).responsePort = s.responsePort := rfl
@[simp] theorem offerFrame_bindingTrace : (offerFrame f s).bindingTrace = s.bindingTrace := rfl
@[simp] theorem offerFrame_primitive : (offerFrame f s).primitive = s.primitive := rfl

@[simp] theorem withFetchWord_eq : s.withFetchWord nbits w = offerFrame (tableFrame nbits w) s := rfl

end Sys2Proof.Laws
end

