-- ==== Sys2Proof/Laws/Ops.lean ====
section
/-! SUPPORT. What each shared operation can do, said once. -/

namespace Sys2Proof.Laws

open Sys2Proof.Machine

variable {α β : Type}

@[simp] theorem value_issued (a : α) : (value a).issued = [] := rfl
@[simp] theorem value_ending (a : α) : (value a).ending = .done a := rfl
@[simp] theorem raise_issued (e : Status) : (raise e : Run α).issued = [] := rfl
@[simp] theorem raise_ending (e : Status) : (raise e : Run α).ending = .raised e := rfl

@[simp] theorem andThen_value (a : α) (f : α → Run β) : andThen (value a) f = f a := by
  simp [andThen, value]

@[simp] theorem andThen_raise (e : Status) (f : α → Run β) : andThen (raise e) f = raise e := rfl

/-- After a run that is done, the rest goes on; its requests come after. -/
theorem andThen_done {x : Run α} {f : α → Run β} {a : α} (h : x.ending = .done a) :
    andThen x f = ⟨x.issued ++ (f a).issued, (f a).ending⟩ := by simp [andThen, h]

theorem andThen_raised {x : Run α} {f : α → Run β} {e : Status} (h : x.ending = .raised e) :
    andThen x f = ⟨x.issued, .raised e⟩ := by simp [andThen, h]

theorem andThen_silent {x : Run α} {f : α → Run β} (h : x.ending = .silent) :
    andThen x f = ⟨x.issued, .silent⟩ := by simp [andThen, h]

/-- A composed run is done exactly when both parts are. -/
theorem andThen_ending_done {x : Run α} {f : α → Run β} {b : β} :
    (andThen x f).ending = .done b ↔ ∃ a, x.ending = .done a ∧ (f a).ending = .done b := by
  unfold andThen
  cases h : x.ending <;> simp

/-- A composed run raises when its first part does, or its second. -/
theorem andThen_ending_raised {x : Run α} {f : α → Run β} {e : Status} :
    (andThen x f).ending = .raised e ↔
      x.ending = .raised e ∨ ∃ a, x.ending = .done a ∧ (f a).ending = .raised e := by
  unfold andThen
  cases h : x.ending <;> simp

/-- A composed run is stuck when its first part is, or its second. -/
theorem andThen_ending_silent {x : Run α} {f : α → Run β} :
    (andThen x f).ending = .silent ↔
      x.ending = .silent ∨ ∃ a, x.ending = .done a ∧ (f a).ending = .silent := by
  unfold andThen
  cases h : x.ending <;> simp

/-- Every request of a composed run is one of the first part or one of the second. -/
theorem mem_andThen_issued {x : Run α} {f : α → Run β} {q : Request} (h : q ∈ (andThen x f).issued) :
    q ∈ x.issued ∨ ∃ a, x.ending = .done a ∧ q ∈ (f a).issued := by
  unfold andThen at h
  cases hx : x.ending <;> simp [hx] at h
  · exact h.imp id (fun h' => ⟨_, rfl, h'⟩)
  · exact .inl h
  · exact .inl h

@[simp] theorem encrypt_issued (p : Primitive) (k b : Block) : (encrypt p k b).issued = [⟨k, b⟩] := rfl

theorem encrypt_block {p : Primitive} {k b o : Block} (h : cipherAnswer p ⟨k, b⟩ = .block o) :
    encrypt p k b = ⟨[⟨k, b⟩], .done o⟩ := by simp [encrypt, h]

theorem encrypt_cipherError {p : Primitive} {k b : Block} (h : cipherAnswer p ⟨k, b⟩ = .cipherError) :
    encrypt p k b = ⟨[⟨k, b⟩], .raised .errCipher⟩ := by simp [encrypt, h]

theorem encrypt_noAnswer {p : Primitive} {k b : Block} (h : cipherAnswer p ⟨k, b⟩ = .noAnswer) :
    encrypt p k b = ⟨[⟨k, b⟩], .silent⟩ := by simp [encrypt, h]

@[simp] theorem operand_bytes {n : Nat} (x : ByteString n) : operand n x.bytes = value x := by
  simp [operand]

theorem operand_wrong {n : Nat} {l : List Byte} (h : l.length ≠ n) : operand n l = raise .errLength := by
  simp [operand, sized?_eq_none.2 h]

theorem needContext_held {s : State} {c : Context} (h : s.slot = .held c) : needContext s = value c := by
  simp [needContext, h, heldContext]

theorem needContext_noContext {s : State} (h : s.slot = .noContext) :
    needContext s = raise .errNoContext := by
  simp [needContext, h, heldContext]

theorem finish_done {s : State} {r : Run Effect} {e : Effect} (h : r.ending = .done e) :
    finish s r = .next (respondOk s r.issued e) := by simp [finish, h]

theorem finish_raised {s : State} {r : Run Effect} {e : Status} (h : r.ending = .raised e) :
    finish s r = .next (raiseStatus s r.issued e) := by simp [finish, h]

theorem finish_silent {s : State} {r : Run Effect} (h : r.ending = .silent) :
    finish s r = .fault (.primitiveSilent r.issued) := by simp [finish, h]

/-- All that a command's end can be when it answers a next state. -/
theorem finish_next {s t : State} {r : Run Effect} (h : finish s r = .next t) :
    (∃ e, r.ending = .done e ∧ t = respondOk s r.issued e) ∨
    (∃ e, r.ending = .raised e ∧ t = raiseStatus s r.issued e) := by
  unfold finish at h
  cases hr : r.ending <;> simp [hr] at h <;> simp [h]

/-- A command's end is never a refusal. -/
theorem finish_not_refused {s : State} {r : Run Effect} {x : Refusal} : finish s r ≠ .refused x := by
  unfold finish
  cases r.ending <;> simp

/-- An operand is its value, or has a wrong length. -/
theorem operand_cases (n : Nat) (l : List Byte) :
    (∃ x : ByteString n, l = x.bytes ∧ operand n l = value x) ∨
    (l.length ≠ n ∧ operand n l = raise .errLength) := by
  by_cases h : l.length = n
  · exact .inl ⟨⟨l, h⟩, rfl, operand_bytes ⟨l, h⟩⟩
  · exact .inr ⟨h, operand_wrong h⟩

/-- The slot holds a context, or none. -/
theorem slot_cases (s : State) :
    (s.slot = .noContext ∧ ctxValid s = false) ∨ ∃ c, s.slot = .held c ∧ ctxValid s = true := by
  cases h : s.slot <;> simp [ctxValid, h, heldContext]

/-- The row the multiplexer selects for each single function, and the combined function. -/
theorem selectedFunction_f1 (p : Primitive) (c : Context) :
    selectedFunction p c (Opcode.fsel .f1) = singleFunction p c ⟨.in1, .temp, 8, 0x00#8, 0, 8⟩ := rfl
theorem selectedFunction_f1star (p : Primitive) (c : Context) :
    selectedFunction p c (Opcode.fsel .f1star) = singleFunction p c ⟨.in1, .temp, 8, 0x00#8, 8, 16⟩ := rfl
theorem selectedFunction_f2 (p : Primitive) (c : Context) :
    selectedFunction p c (Opcode.fsel .f2) = singleFunction p c ⟨.temp, .zero, 0, 0x01#8, 8, 16⟩ := rfl
theorem selectedFunction_f3 (p : Primitive) (c : Context) :
    selectedFunction p c (Opcode.fsel .f3) = singleFunction p c ⟨.temp, .zero, 4, 0x02#8, 0, 16⟩ := rfl
theorem selectedFunction_f4 (p : Primitive) (c : Context) :
    selectedFunction p c (Opcode.fsel .f4) = singleFunction p c ⟨.temp, .zero, 8, 0x04#8, 0, 16⟩ := rfl
theorem selectedFunction_f5 (p : Primitive) (c : Context) :
    selectedFunction p c (Opcode.fsel .f5) = singleFunction p c ⟨.temp, .zero, 0, 0x01#8, 0, 6⟩ := rfl
theorem selectedFunction_f5star (p : Primitive) (c : Context) :
    selectedFunction p c (Opcode.fsel .f5star) = singleFunction p c ⟨.temp, .zero, 12, 0x08#8, 0, 6⟩ := rfl
theorem selectedFunction_f2345 (p : Primitive) (c : Context) :
    selectedFunction p c (Opcode.fsel .f2345) = combinedFunction p c := rfl

/-- A run of a command depends on the state through the slot and the primitive alone. -/
theorem functionCommand_congr {s t : State} (h : s.slot = t.slot) (hp : s.primitive = t.primitive)
    (f : BitVec 3) : functionCommand s f = functionCommand t f := by
  simp [functionCommand, needContext, h, hp]

end Sys2Proof.Laws
end

