-- ==== Sys2Proof/Laws/Exec.lean ====
section
/-! SUPPORT. Every meaning as one run that is finished, and what such a run can be: checks that issue nothing,
then requests of which each but the last was answered. -/

namespace Sys2Proof.Laws

open Sys2Proof.Machine Sys2Proof.Safety

variable {α β : Type} {p : Primitive}

/-- The run of each command: `exec` finishes it (`exec_eq_finish`). -/
def commandRun (i : Instr) (s : State) : Run Effect :=
  match i with
  | .computeOpc op k =>
    andThen (operand 16 op) fun op => andThen (operand 16 k) fun k =>
    andThen (computeOpc s.primitive op k) fun opc => value ⟨s.slot, [opc.bytes]⟩
  | .newCtxOp k op rand sqn amf =>
    andThen (operand 16 k) fun k => andThen (operand 16 op) fun op => andThen (operand 16 rand) fun rand =>
    andThen (operand 6 sqn) fun sqn => andThen (operand 2 amf) fun amf =>
    andThen (computeOpc s.primitive op k) fun opc => value ⟨.held ⟨k, opc, rand, sqn, amf⟩, []⟩
  | .newCtxOpc k opc rand sqn amf =>
    andThen (operand 16 k) fun k => andThen (operand 16 opc) fun opc => andThen (operand 16 rand) fun rand =>
    andThen (operand 6 sqn) fun sqn => andThen (operand 2 amf) fun amf =>
    value ⟨.held ⟨k, opc, rand, sqn, amf⟩, []⟩
  | .setSqn sqn =>
    andThen (operand 6 sqn) fun sqn => andThen (needContext s) fun ctx =>
    value ⟨.held { ctx with sqn := sqn }, []⟩
  | .setAmf amf =>
    andThen (operand 2 amf) fun amf => andThen (needContext s) fun ctx =>
    value ⟨.held { ctx with amf := amf }, []⟩
  | .discard => value ⟨.noContext, []⟩
  | .f1 => functionCommand s (Opcode.fsel .f1)
  | .f1star => functionCommand s (Opcode.fsel .f1star)
  | .f2 => functionCommand s (Opcode.fsel .f2)
  | .f3 => functionCommand s (Opcode.fsel .f3)
  | .f4 => functionCommand s (Opcode.fsel .f4)
  | .f5 => functionCommand s (Opcode.fsel .f5)
  | .f5star => functionCommand s (Opcode.fsel .f5star)
  | .f2345 => functionCommand s (Opcode.fsel .f2345)

theorem exec_eq_finish (i : Instr) (s : State) : exec i s = finish s (commandRun i s) := by cases i <;> rfl

theorem commandRun_congr {s t : State} (h : s.slot = t.slot) (hp : s.primitive = t.primitive) (i : Instr) :
    commandRun i s = commandRun i t := by
  cases i <;> simp only [commandRun, functionCommand_congr h hp, h, hp, needContext]

/-- A run that only checks: it issues nothing, and raises `ERR_LENGTH` or `ERR_NO_CONTEXT` at most. -/
structure ChecksOnly (x : Run α) : Prop where
  issued : x.issued = []
  ends   : (∃ a, x.ending = .done a) ∨ x.ending = .raised .errLength ∨ x.ending = .raised .errNoContext

/-- A run that only makes requests: each but the last was answered with a block; the last decides the ending. -/
inductive RequestsOnly (p : Primitive) (x : Run α) : Prop where
  | done (a : α) (h : x.ending = .done a) (answered : ∀ q ∈ x.issued, ∃ b, cipherAnswer p q = .block b)
  | failed (qs : List Request) (q : Request) (h : x.ending = .raised .errCipher) (issued : x.issued = qs ++ [q])
      (last : cipherAnswer p q = .cipherError) (answered : ∀ q ∈ qs, ∃ b, cipherAnswer p q = .block b)
  | stuck (qs : List Request) (q : Request) (h : x.ending = .silent) (issued : x.issued = qs ++ [q])
      (last : cipherAnswer p q = .noAnswer) (answered : ∀ q ∈ qs, ∃ b, cipherAnswer p q = .block b)

/-- A run of checks and then requests: an error of the checks with nothing issued, or requests only. -/
inductive ChecksThenRequests (p : Primitive) (x : Run α) : Prop where
  | refused (e : Status) (he : e = .errLength ∨ e = .errNoContext) (h : x.ending = .raised e)
      (issued : x.issued = [])
  | ran (h : RequestsOnly p x)

theorem checksOnly_value (a : α) : ChecksOnly (value a) := ⟨rfl, .inl ⟨a, rfl⟩⟩

theorem requestsOnly_value (a : α) : RequestsOnly p (value a) := .done a rfl (by simp)

theorem requestsOnly_encrypt (k b : Block) : RequestsOnly p (encrypt p k b) := by
  cases h : cipherAnswer p ⟨k, b⟩ with
  | block o => exact .done o (by rw [encrypt_block h]) (by simp [h])
  | cipherError => exact .failed [] ⟨k, b⟩ (by rw [encrypt_cipherError h]) (by simp) h (by simp)
  | noAnswer => exact .stuck [] ⟨k, b⟩ (by rw [encrypt_noAnswer h]) (by simp) h (by simp)

theorem requestsOnly_andThen {x : Run α} {f : α → Run β} (hx : RequestsOnly p x)
    (hf : ∀ a, RequestsOnly p (f a)) : RequestsOnly p (andThen x f) := by
  cases hx with
  | done a h ans =>
    rw [andThen_done h]
    cases hf a with
    | done b h' ans' =>
      exact .done b h' (fun q hq => (List.mem_append.1 hq).elim (ans q) (ans' q))
    | failed qs q h' iss last ans' =>
      exact .failed (x.issued ++ qs) q h' (by simp [iss]) last
        (fun q hq => (List.mem_append.1 hq).elim (ans q) (ans' q))
    | stuck qs q h' iss last ans' =>
      exact .stuck (x.issued ++ qs) q h' (by simp [iss]) last
        (fun q hq => (List.mem_append.1 hq).elim (ans q) (ans' q))
  | failed qs q h iss last ans => rw [andThen_raised h]; exact .failed qs q rfl iss last ans
  | stuck qs q h iss last ans => rw [andThen_silent h]; exact .stuck qs q rfl iss last ans

theorem checksThen_andThen {x : Run α} {f : α → Run β} (hx : ChecksOnly x)
    (hf : ∀ a, ChecksThenRequests p (f a)) : ChecksThenRequests p (andThen x f) := by
  obtain ⟨hi, ⟨a, h⟩ | h | h⟩ := hx
  · rw [andThen_done h, hi, List.nil_append]; exact hf a
  · rw [andThen_raised h]; exact .refused .errLength (.inl rfl) rfl hi
  · rw [andThen_raised h]; exact .refused .errNoContext (.inr rfl) rfl hi

theorem checksOnly_operand {n : Nat} (l : List Byte) : ChecksOnly (operand n l) := by
  unfold operand
  cases sized? n l with
  | none => exact ⟨rfl, .inr (.inl rfl)⟩
  | some x => exact checksOnly_value x

theorem checksOnly_needContext (s : State) : ChecksOnly (needContext s) := by
  unfold needContext
  cases heldContext s.slot with
  | none => exact ⟨rfl, .inr (.inr rfl)⟩
  | some c => exact checksOnly_value c

theorem requestsOnly_computeOpc (op k : Block) : RequestsOnly p (computeOpc p op k) :=
  requestsOnly_andThen (requestsOnly_encrypt _ _) fun _ => requestsOnly_value _

theorem requestsOnly_pipe (c : Context) (a b : Block) (r : Nat) (k : Byte) : RequestsOnly p (pipe p c a b r k) :=
  requestsOnly_andThen (requestsOnly_encrypt _ _) fun _ => requestsOnly_value _

theorem requestsOnly_selectedFunction (c : Context) (f : BitVec 3) :
    RequestsOnly p (selectedFunction p c f) := by
  unfold selectedFunction
  split
  · exact requestsOnly_andThen (requestsOnly_encrypt _ _) fun _ =>
      requestsOnly_andThen (requestsOnly_pipe _ _ _ _ _) fun _ => requestsOnly_value _
  · exact requestsOnly_andThen (requestsOnly_encrypt _ _) fun _ =>
      requestsOnly_andThen (requestsOnly_pipe _ _ _ _ _) fun _ =>
      requestsOnly_andThen (requestsOnly_pipe _ _ _ _ _) fun _ =>
      requestsOnly_andThen (requestsOnly_pipe _ _ _ _ _) fun _ => requestsOnly_value _

theorem checksThenRequests_functionCommand (s : State) (f : BitVec 3) :
    ChecksThenRequests s.primitive (functionCommand s f) :=
  checksThen_andThen (checksOnly_needContext s) fun _ => .ran <|
    requestsOnly_andThen (requestsOnly_selectedFunction _ _) fun _ => requestsOnly_value _

/-- Every command checks, then makes requests. -/
theorem commandRun_shape (i : Instr) (s : State) : ChecksThenRequests s.primitive (commandRun i s) := by
  cases i with
  | computeOpc op k =>
    exact checksThen_andThen (checksOnly_operand _) fun _ => checksThen_andThen (checksOnly_operand _) fun _ =>
      .ran <| requestsOnly_andThen (requestsOnly_computeOpc _ _) fun _ => requestsOnly_value _
  | newCtxOp k op rand sqn amf =>
    exact checksThen_andThen (checksOnly_operand _) fun _ => checksThen_andThen (checksOnly_operand _) fun _ =>
      checksThen_andThen (checksOnly_operand _) fun _ => checksThen_andThen (checksOnly_operand _) fun _ =>
      checksThen_andThen (checksOnly_operand _) fun _ =>
      .ran <| requestsOnly_andThen (requestsOnly_computeOpc _ _) fun _ => requestsOnly_value _
  | newCtxOpc k op rand sqn amf =>
    exact checksThen_andThen (checksOnly_operand _) fun _ => checksThen_andThen (checksOnly_operand _) fun _ =>
      checksThen_andThen (checksOnly_operand _) fun _ => checksThen_andThen (checksOnly_operand _) fun _ =>
      checksThen_andThen (checksOnly_operand _) fun _ => .ran (requestsOnly_value _)
  | setSqn sqn =>
    exact checksThen_andThen (checksOnly_operand _) fun _ =>
      checksThen_andThen (checksOnly_needContext _) fun _ => .ran (requestsOnly_value _)
  | setAmf amf =>
    exact checksThen_andThen (checksOnly_operand _) fun _ =>
      checksThen_andThen (checksOnly_needContext _) fun _ => .ran (requestsOnly_value _)
  | discard => exact .ran (requestsOnly_value _)
  | f1 => exact checksThenRequests_functionCommand _ _
  | f1star => exact checksThenRequests_functionCommand _ _
  | f2 => exact checksThenRequests_functionCommand _ _
  | f3 => exact checksThenRequests_functionCommand _ _
  | f4 => exact checksThenRequests_functionCommand _ _
  | f5 => exact checksThenRequests_functionCommand _ _
  | f5star => exact checksThenRequests_functionCommand _ _
  | f2345 => exact checksThenRequests_functionCommand _ _

/-- All that a command can do: succeed, raise an error with nothing written, or be stuck. -/
theorem exec_cases (i : Instr) (s : State) :
    (∃ e, (commandRun i s).ending = .done e ∧ exec i s = .next (respondOk s (commandRun i s).issued e)) ∨
    (∃ e, e ≠ .ok ∧ (commandRun i s).ending = .raised e ∧
      exec i s = .next (raiseStatus s (commandRun i s).issued e)) ∨
    ((commandRun i s).ending = .silent ∧ exec i s = .fault (.primitiveSilent (commandRun i s).issued)) := by
  rw [exec_eq_finish]
  cases commandRun_shape i s with
  | refused e he h iss =>
    exact .inr (.inl ⟨e, by rcases he with rfl | rfl <;> decide, h, finish_raised h⟩)
  | ran hr =>
    cases hr with
    | done a h _ => exact .inl ⟨a, h, finish_done h⟩
    | failed qs q h _ _ _ => exact .inr (.inl ⟨_, by decide, h, finish_raised h⟩)
    | stuck qs q h _ _ _ => exact .inr (.inr ⟨h, finish_silent h⟩)

/-- When a command answers a next state, it sent one response and appended its requests; the command port and
the primitive are as before. -/
theorem exec_next {i : Instr} {s t : State} (h : exec i s = .next t) :
    t.commandPort = s.commandPort ∧ t.primitive = s.primitive ∧
    t.bindingTrace = s.bindingTrace ++ (commandRun i s).issued ∧
    ((∃ e, (commandRun i s).ending = .done e ∧ t.slot = e.slot ∧
        t.responsePort = s.responsePort ++ [okFrame e.fields]) ∨
     (∃ e, e ≠ .ok ∧ (commandRun i s).ending = .raised e ∧ t.slot = s.slot ∧
        t.responsePort = s.responsePort ++ [errorFrame e])) := by
  obtain ⟨e, he, hn⟩ | ⟨e, hk, he, hn⟩ | ⟨_, hn⟩ := exec_cases i s <;> rw [hn] at h <;> cases h
  · exact ⟨rfl, rfl, rfl, .inl ⟨e, he, rfl, rfl⟩⟩
  · exact ⟨rfl, rfl, rfl, .inr ⟨e, hk, he, rfl, rfl⟩⟩

/-- No status but `OK` has the byte `00`. -/
theorem byte_ne_zero {e : Status} (h : e ≠ .ok) : e.byte ≠ 0x00#8 := by cases e <;> first | exact absurd rfl h | decide

@[simp] theorem head_okFrame (fs : List (List Byte)) : (okFrame fs).head? = some 0x00#8 := rfl

@[simp] theorem head_errorFrame (e : Status) : (errorFrame e).head? = some e.byte := rfl

/-- A decoding error is never `OK`. -/
theorem decode_error_ne_ok {f : Frame} {e : Status} (h : decode f = .error e) : e ≠ .ok := by
  obtain ⟨_, hd⟩ | ⟨_, _, _, _, hd⟩ | ⟨_, _, _, _, hd⟩ | ⟨i, _, _, hd⟩ := decode_cases f
  · rw [hd] at h; cases h; decide
  · rw [hd] at h; cases h; decide
  · rw [hd] at h; cases h; decide
  · rw [hd] at h
    split at h <;> cases h
    decide

/-- A frame is answered by its decoding error, or runs the command it decodes to. -/
theorem runFrame_cases (f : Frame) (s : State) :
    (∃ e, e ≠ .ok ∧ decode f = .error e ∧ runFrame f s = .next (raiseStatus s [] e)) ∨
    (∃ i, decode f = .ok i ∧ runFrame f s = exec i s) := by
  cases h : decode f with
  | error e => exact .inl ⟨e, decode_error_ne_ok h, rfl, by simp [runFrame, h]⟩
  | ok i => exact .inr ⟨i, rfl, by simp [runFrame, h]⟩

/-- All that a step can answer. -/
theorem step_cases (s : State) :
    (s.commandPort = [] ∧ step s = .next s) ∨
    (∃ e rest, s.commandPort = e :: rest ∧ step s = takeEvent e { s with commandPort := rest }) := by
  cases h : s.commandPort with
  | nil => exact .inl ⟨rfl, by simp [step, h]⟩
  | cons e rest => exact .inr ⟨e, rest, rfl, by simp [step, h]⟩

end Sys2Proof.Laws
end

