-- ==== Sys2Proof/Laws/Commands.lean ====
section
/-! SUPPORT. What a run that is done was: the operands it took, the context it found, the requests that were
answered, the fields it responds with and the slot it leaves. -/

namespace Sys2Proof.Laws

open Sys2Proof.Machine Sys2Proof.Safety

variable {p : Primitive}

/-- An operand that was taken is the value's bytes. -/
theorem operand_done {n : Nat} {l : List Byte} {x : ByteString n} (h : (operand n l).ending = .done x) :
    l = x.bytes ∧ operand n l = value x := by
  obtain ⟨y, rfl, hy⟩ | ⟨_, hy⟩ := operand_cases n l <;> rw [hy] at h ⊢ <;> cases h
  exact ⟨rfl, rfl⟩

/-- A context that was found is the one the slot holds. -/
theorem needContext_ended {s : State} {c : Context} (h : (needContext s).ending = .done c) :
    s.slot = .held c := by
  obtain ⟨hs, -⟩ | ⟨d, hs, -⟩ := slot_cases s
  · rw [needContext_noContext hs] at h; cases h
  · rw [needContext_held hs] at h; cases h; exact hs

/-- A request that is done was answered with that block. -/
theorem encrypt_done {k b o : Block} (h : (encrypt p k b).ending = .done o) : cipherAnswer p ⟨k, b⟩ = .block o := by
  unfold encrypt at h
  cases hh : cipherAnswer p ⟨k, b⟩ <;> simp [hh] at h
  rw [h]

/-- A pipeline run that is done: its one request was answered, and OPc xored into the answer. -/
theorem pipe_done {c : Context} {a b o : Block} {r : Nat} {k : Byte} (h : (pipe p c a b r k).ending = .done o) :
    ∃ e, cipherAnswer p ⟨c.k, pipeInput c.opc a b r k⟩ = .block e ∧ o = bxor e c.opc := by
  simp only [pipe, andThen_ending_done, value_ending] at h
  obtain ⟨e, he, h⟩ := h
  cases h
  exact ⟨e, encrypt_done he, rfl⟩

/-- An OPc derivation that is done made its one request. -/
theorem computeOpc_done {op k o : Block} (h : (computeOpc p op k).ending = .done o) :
    computeOpc p op k = ⟨[⟨k, op⟩], .done o⟩ := by
  simp only [computeOpc, andThen_ending_done, value_ending] at h
  obtain ⟨e, he, h⟩ := h
  cases h
  simp [computeOpc, encrypt_block (encrypt_done he), andThen, value]

/-- An f-command that is done found a context, left the slot, and responds with what the function gave. -/
theorem functionCommand_done {s : State} {f : BitVec 3} {e : Effect} (h : (functionCommand s f).ending = .done e) :
    ∃ c, s.slot = .held c ∧ e.slot = s.slot ∧ (selectedFunction s.primitive c f).ending = .done e.fields ∧
      (functionCommand s f).issued = (selectedFunction s.primitive c f).issued := by
  obtain ⟨hs, -⟩ | ⟨c, hs, -⟩ := slot_cases s
  · simp [functionCommand, needContext_noContext hs] at h
  · simp only [functionCommand, needContext_held hs, andThen_value, andThen_ending_done] at h ⊢
    obtain ⟨fl, hf, he⟩ := h
    cases he
    exact ⟨c, hs, rfl, hf, by rw [andThen_done hf]; simp⟩

/-- The run of an f-command. -/
theorem commandRun_fCommand {i : Instr} (hi : i ∈ fCommands) (s : State) :
    commandRun i s = functionCommand s i.opcode.fsel := by
  simp only [fCommands, List.mem_cons, List.not_mem_nil, or_false] at hi
  obtain rfl | rfl | rfl | rfl | rfl | rfl | rfl | rfl := hi <;> rfl

/-- The f-commands and `COMPUTE_OPC` leave the slot. -/
theorem done_slot {i : Instr} {s : State} {e : Effect} (hi : i ∈ fCommands ∨ ∃ op k, i = .computeOpc op k)
    (h : (commandRun i s).ending = .done e) : e.slot = s.slot := by
  obtain hi | ⟨op, k, rfl⟩ := hi
  · rw [commandRun_fCommand hi] at h
    obtain ⟨_, _, hs, _⟩ := functionCommand_done h
    exact hs
  · simp only [commandRun, andThen_ending_done, value_ending] at h
    obtain ⟨_, _, _, _, _, _, h⟩ := h
    cases h
    rfl

/-- The fields a function gives have the lengths of the opcode's row. -/
theorem selectedFunction_lengths {i : Instr} (hi : i ∈ fCommands) {c : Context} {fl : List (List Byte)}
    (h : (selectedFunction p c i.opcode.fsel).ending = .done fl) :
    fl.map List.length = i.opcode.resultLens := by
  simp only [fCommands, List.mem_cons, List.not_mem_nil, or_false] at hi
  obtain rfl | rfl | rfl | rfl | rfl | rfl | rfl | rfl := hi <;>
    simp only [Instr.opcode, selectedFunction_f1, selectedFunction_f1star, selectedFunction_f2,
      selectedFunction_f3, selectedFunction_f4, selectedFunction_f5, selectedFunction_f5star,
      selectedFunction_f2345, singleFunction, combinedFunction, andThen_ending_done, value_ending] at h
  case inr.inr.inr.inr.inr.inr.inr =>
    obtain ⟨_, _, _, _, _, _, _, _, h⟩ := h
    cases h
    simp [Instr.opcode, Opcode.resultLens]
  all_goals
    obtain ⟨_, _, _, _, h⟩ := h
    cases h
    simp only [List.map_cons, List.map_nil, length_slice]
    rfl

/-- The fields a command responds with have the lengths of the opcode's row. -/
theorem done_fields {i : Instr} {s : State} {e : Effect} (h : (commandRun i s).ending = .done e) :
    e.fields.map List.length = i.opcode.resultLens := by
  have function : i ∈ fCommands → e.fields.map List.length = i.opcode.resultLens := by
    intro hi
    rw [commandRun_fCommand hi] at h
    obtain ⟨c, _, _, hf, _⟩ := functionCommand_done h
    exact selectedFunction_lengths hi hf
  cases i
  case discard => cases h; rfl
  all_goals first
    | (refine function ?_; simp [fCommands]; done)
    | simp only [commandRun, andThen_ending_done, value_ending] at h
  case computeOpc => obtain ⟨_, _, _, _, _, _, h⟩ := h; cases h; simp [Instr.opcode, Opcode.resultLens]
  case newCtxOp => obtain ⟨_, _, _, _, _, _, _, _, _, _, _, _, h⟩ := h; cases h; rfl
  case newCtxOpc => obtain ⟨_, _, _, _, _, _, _, _, _, _, h⟩ := h; cases h; rfl
  case setSqn => obtain ⟨_, _, _, _, h⟩ := h; cases h; rfl
  case setAmf => obtain ⟨_, _, _, _, h⟩ := h; cases h; rfl

/-- The requests a command issued are those of its run, also when it got stuck. -/
theorem issuedBy_exec (i : Instr) (s : State) : issuedBy s (exec i s) = (commandRun i s).issued := by
  rw [exec_eq_finish]
  unfold finish
  cases (commandRun i s).ending <;> simp [issuedBy]

end Sys2Proof.Laws
end

