-- ==== Sys2Proof/Laws/PerInstr.lean ====
section
/-! SUPPORT. Statements about every command, made per constructor (LAWS.json). -/

namespace Sys2Proof.Laws.FrameLength

/-- The valid frame length of a command (30_encoding.md R73, column "valid frame length"). -/
def validLength : Instr → Nat
  | .computeOpc _ _ => 35
  | .newCtxOp _ _ _ _ _ => 62
  | .newCtxOpc _ _ _ _ _ => 62
  | .setSqn _ => 8
  | .setAmf _ => 4
  | .discard => 1
  | .f1 => 1
  | .f1star => 1
  | .f2 => 1
  | .f3 => 1
  | .f4 => 1
  | .f5 => 1
  | .f5star => 1
  | .f2345 => 1

/-- A well-formed command's frame has the length of the table (30_encoding.md R73). -/
def Statement (i : Instr) : Prop := i.wellFormed = true → (encode i).length = validLength i

theorem computeOpc (op k : List Byte) : Statement (.computeOpc op k) := by
  simp_all [Statement, Instr.wellFormed, Config.opLen, Config.keyLen, encode, Instr.operands, field, validLength]

theorem newCtxOp (k op rand sqn amf : List Byte) : Statement (.newCtxOp k op rand sqn amf) := by
  simp_all [Statement, Instr.wellFormed, Config.opLen, Config.keyLen, Config.randLen, Config.sqnLen,
    Config.amfLen, encode, Instr.operands, field, validLength]

theorem newCtxOpc (k opc rand sqn amf : List Byte) : Statement (.newCtxOpc k opc rand sqn amf) := by
  simp_all [Statement, Instr.wellFormed, Config.opcLen, Config.keyLen, Config.randLen, Config.sqnLen,
    Config.amfLen, encode, Instr.operands, field, validLength]

theorem setSqn (sqn : List Byte) : Statement (.setSqn sqn) := by
  simp_all [Statement, Instr.wellFormed, Config.sqnLen, encode, Instr.operands, field, validLength]

theorem setAmf (amf : List Byte) : Statement (.setAmf amf) := by
  simp_all [Statement, Instr.wellFormed, Config.amfLen, encode, Instr.operands, field, validLength]

theorem discard : Statement .discard := fun _ => rfl
theorem f1 : Statement .f1 := fun _ => rfl
theorem f1star : Statement .f1star := fun _ => rfl
theorem f2 : Statement .f2 := fun _ => rfl
theorem f3 : Statement .f3 := fun _ => rfl
theorem f4 : Statement .f4 := fun _ => rfl
theorem f5 : Statement .f5 := fun _ => rfl
theorem f5star : Statement .f5star := fun _ => rfl
theorem f2345 : Statement .f2345 := fun _ => rfl

end Sys2Proof.Laws.FrameLength
end

