-- ==== Sys2Proof/Tests/Slice0.lean ====
section
/-! SUPPORT. Tests of the model against the spec's own words and vectors (95_test_vectors.md; every expected
value is written out from there), and a witness for the hypotheses of every statement that has some. -/

namespace Sys2Proof.Tests

/- The kernel evaluates AES in many of these: one theorem is checked after another. -/
set_option Elab.async false

open Sys2Proof.Machine Sys2Proof.Safety

/-- The byte string of length `n` whose hex digits, byte 0 leftmost, are the number `w` (00_scope.md R8). -/
def str (n w : Nat) : ByteString n := .tabulate n (fun i => BitVec.ofNat 8 (w >>> (8 * (n - 1 - i))))

/-- The same as a list of bytes. -/
def hex (n w : Nat) : List Byte := (str n w).bytes

/-- The operands of the context TS1 (95_test_vectors.md section 1). -/
def k1 : Nat := 0x465b5ce8b199b49faa5f0a2ee238a6bc
def op1 : Nat := 0xcdc202d5123e20f62b6d676ac72cb318
def opc1 : Nat := 0xcd63cb71954a9f4e48a5994e37a02baf
def rand1 : Nat := 0x23553cbe9637a89d218ae64dae47bf35

/-- The context TS1. -/
def ts1 : Context := ⟨str 16 k1, str 16 opc1, str 16 rand1, str 6 0xff9bb4d0b607, str 2 0xb9b9⟩

/-- A core holding TS1, with nothing sent yet. -/
def coreTs1 : State := { State.reset with slot := .held ts1 }

/-- A core holding TS1 whose primitive has the given answers and is silent otherwise. -/
def coreWith (rows : List AnswerRow) : State := { coreTs1 with primitive := .tabulated rows }

/-- TEMP's request of TS1 (95_test_vectors.md V-TEMP-1) and its answer. -/
def tempReq : Request := ⟨str 16 k1, str 16 0xee36f7cf037d37d3692f7f0399e7949a⟩
def temp1 : Block := str 16 0x9e2980c59739da67b136355e3cede6a2

/-- The other requests of TS1 and their answers (95_test_vectors.md section 1): F1's block, OUT2, OUT3,
OUT4, OUT5. -/
def vectors : List AnswerRow :=
  [⟨tempReq, .block temp1⟩,
   ⟨⟨str 16 k1, str 16 0x2917ad5b169e487183ce4aff1fa0c055⟩, .block (str 16 0x87fc31b2c19530fd496a36d0f3485a46)⟩,
   ⟨⟨str 16 k1, str 16 0x534a4bb402734529f993ac100b4dcd0c⟩, .block (str 16 0x670b5715163a3350ede7889bd41a7b10)⟩,
   ⟨⟨str 16 k1, str 16 0x02734529f993ac100b4dcd0d534a4bb6⟩, .block (str 16 0x796862d250c1b54bf35540c985bbd364)⟩,
   ⟨⟨str 16 k1, str 16 0xf993ac100b4dcd0d534a4bb40273452d⟩, .block (str 16 0x3a0a77a6c44ed94a5ad3eb3f2bcd1fee)⟩,
   ⟨⟨str 16 k1, str 16 0x0b4dcd0d534a4bb402734529f993ac18⟩, .block (str 16 0x887d409d3171e7aeb1e55195635d0a6e)⟩]

/-- `s` with `f` sent. -/
def sent (f : Frame) (s : State) : State := { s with commandPort := [.frame f] }

/-- The next state of an outcome, and its fault, where it has one: outcomes are compared through these. -/
def nextOf : Host.Outcome State Fault Refusal → Option State
  | .next t => some t
  | _ => none
def faultOf : Host.Outcome State Fault Refusal → Option Fault
  | .fault r => some r
  | _ => none

theorem eq_next {o : Host.Outcome State Fault Refusal} {t : State} (h : nextOf o = some t) : o = .next t := by
  cases o <;> simp_all [nextOf]

theorem eq_fault {o : Host.Outcome State Fault Refusal} {r : Fault} (h : faultOf o = some r) : o = .fault r := by
  cases o <;> simp_all [faultOf]

theorem exists_next {o : Host.Outcome State Fault Refusal} (h : (nextOf o).isSome = true) : ∃ t, o = .next t := by
  cases o <;> simp_all [nextOf]

/-- The response a step emits, when it emits one. -/
def answer (f : Frame) (s : State) : Option Frame :=
  match step (sent f s) with
  | .next t => t.responsePort.getLast?
  | _ => none

/-- The slot after a step. -/
def slotAfter (f : Frame) (s : State) : Option ContextSlot :=
  match step (sent f s) with
  | .next t => some t.slot
  | _ => none

/-- The requests a step issues. -/
def traceOf (f : Frame) (s : State) : List Request := issuedBy s (step (sent f s))

/-! ## Well-formedness: one ill-formed term for each check -/

theorem test_illFormed_computeOpc :
    Instr.wellFormed (.computeOpc (hex 15 0) (hex 16 0)) = false ∧
    Instr.wellFormed (.computeOpc (hex 16 0) (hex 17 0)) = false := by decide

theorem test_illFormed_newCtxOp :
    Instr.wellFormed (.newCtxOp (hex 15 0) (hex 16 0) (hex 16 0) (hex 6 0) (hex 2 0)) = false ∧
    Instr.wellFormed (.newCtxOp (hex 16 0) (hex 17 0) (hex 16 0) (hex 6 0) (hex 2 0)) = false ∧
    Instr.wellFormed (.newCtxOp (hex 16 0) (hex 16 0) (hex 8 0) (hex 6 0) (hex 2 0)) = false ∧
    Instr.wellFormed (.newCtxOp (hex 16 0) (hex 16 0) (hex 16 0) (hex 7 0) (hex 2 0)) = false ∧
    Instr.wellFormed (.newCtxOp (hex 16 0) (hex 16 0) (hex 16 0) (hex 6 0) (hex 1 0)) = false := by decide

theorem test_illFormed_newCtxOpc :
    Instr.wellFormed (.newCtxOpc (hex 15 0) (hex 16 0) (hex 16 0) (hex 6 0) (hex 2 0)) = false ∧
    Instr.wellFormed (.newCtxOpc (hex 16 0) (hex 17 0) (hex 16 0) (hex 6 0) (hex 2 0)) = false ∧
    Instr.wellFormed (.newCtxOpc (hex 16 0) (hex 16 0) (hex 8 0) (hex 6 0) (hex 2 0)) = false ∧
    Instr.wellFormed (.newCtxOpc (hex 16 0) (hex 16 0) (hex 16 0) (hex 5 0) (hex 2 0)) = false ∧
    Instr.wellFormed (.newCtxOpc (hex 16 0) (hex 16 0) (hex 16 0) (hex 6 0) (hex 3 0)) = false := by decide

theorem test_illFormed_setSqn : Instr.wellFormed (.setSqn (hex 5 0)) = false := by decide

theorem test_illFormed_setAmf : Instr.wellFormed (.setAmf []) = false := by decide

/-! ## Decoding: the frames of 30_encoding.md R73 and of the vectors, written out byte by byte -/

/-- V-OPC-1. -/
theorem test_decode_computeOpc :
    decode (hex 35 0x0110cdc202d5123e20f62b6d676ac72cb31810465b5ce8b199b49faa5f0a2ee238a6bc) =
      .ok (.computeOpc (hex 16 op1) (hex 16 k1)) := by decide

/-- Section 5.1, TS1. -/
theorem test_decode_newCtxOp :
    decode (hex 62 0x0210465b5ce8b199b49faa5f0a2ee238a6bc10cdc202d5123e20f62b6d676ac72cb3181023553cbe9637a89d218ae64dae47bf3506ff9bb4d0b60702b9b9) =
      .ok (.newCtxOp (hex 16 k1) (hex 16 op1) (hex 16 rand1) (hex 6 0xff9bb4d0b607) (hex 2 0xb9b9)) := by decide

/-- V-CTX-1. -/
theorem test_decode_newCtxOpc :
    decode (hex 62 0x0310465b5ce8b199b49faa5f0a2ee238a6bc10cd63cb71954a9f4e48a5994e37a02baf1023553cbe9637a89d218ae64dae47bf3506ff9bb4d0b60702b9b9) =
      .ok (.newCtxOpc (hex 16 k1) (hex 16 opc1) (hex 16 rand1) (hex 6 0xff9bb4d0b607) (hex 2 0xb9b9)) := by decide

/-- V-CTX-3. -/
theorem test_decode_setSqn :
    decode [0x04#8, 0x06#8, 0x00#8, 0x00#8, 0x00#8, 0x00#8, 0x00#8, 0x01#8] = .ok (.setSqn (hex 6 1)) := by decide

theorem test_decode_setAmf : decode [0x05#8, 0x02#8, 0xb9#8, 0xb8#8] = .ok (.setAmf [0xb9#8, 0xb8#8]) := by decide

theorem test_decode_discard : decode [0b00000110#8] = .ok .discard := by decide

/-- Bits 7..3 are 00010, bits 2..0 the function select (R74). -/
theorem test_decode_functions :
    decode [0b00010000#8] = .ok .f1 ∧ decode [0b00010001#8] = .ok .f1star ∧ decode [0b00010010#8] = .ok .f2 ∧
    decode [0b00010011#8] = .ok .f3 ∧ decode [0b00010100#8] = .ok .f4 ∧ decode [0b00010101#8] = .ok .f5 ∧
    decode [0b00010110#8] = .ok .f5star ∧ decode [0b00010111#8] = .ok .f2345 := by decide

/-- The decoder reads every row of the opcode table from its word (log 10). -/
theorem test_tableWords :
    [0x01, 0x02, 0x03, 0x04, 0x05, 0x06, 0x10, 0x11, 0x12, 0x13, 0x14, 0x15, 0x16, 0x17].map
        (fun w => (decodeTableWord 8 w).map Instr.opcode) = Opcode.all.map some := by decide

/-- A step after reset runs the word's command: `COMPUTE_OPC` of zeros is V-OPC-2, `F1` has no context. -/
theorem test_withFetchWord :
    (match step (State.reset.withFetchWord 8 0x01) with
      | .next t => t.responsePort
      | _ => []) = [0x00#8 :: 0x10#8 :: hex 16 0x66e94bd4ef8a2c3b884cfa59ca342b2e] ∧
    (match step (State.reset.withFetchWord 8 0x10) with
      | .next t => t.responsePort
      | _ => []) = [[0x05#8]] := by decide +kernel

/-- 95_test_vectors.md section 5.4, rows of each kind: with and without a context the same single byte. -/
theorem test_errorFrames :
    ∀ v ∈ ([([], 0x04#8), ([0x00#8], 0x03#8), ([0x0f#8], 0x03#8), ([0x18#8], 0x03#8), ([0xff#8], 0x03#8),
        ([0x07#8, 0x01#8, 0x02#8], 0x03#8), ([0x10#8, 0x00#8], 0x04#8), ([0x06#8, 0x00#8], 0x04#8),
        ([0x02#8], 0x04#8), ([0x05#8], 0x04#8), ([0x05#8, 0x02#8, 0x00#8], 0x04#8),
        (hex 12 0x03ff00000000000000000000, 0x04#8), ([0x05#8, 0x00#8], 0x01#8),
        ([0x05#8, 0x03#8, 0x00#8, 0x00#8, 0x00#8], 0x01#8), (hex 7 0x0405ff9bb4d0b6, 0x01#8),
        (hex 35 0x010fcdc202d5123e20f62b6d676ac72cb311465b5ce8b199b49faa5f0a2ee238a6bc00, 0x01#8)] :
        List (Frame × Byte)),
      step (sent v.1 coreTs1) = .next (emit { coreTs1 with commandPort := [] } [v.2] []) ∧
      step (sent v.1 State.reset) = .next (emit State.reset [v.2] []) := by
  intro v hv
  simp only [List.mem_cons, List.not_mem_nil, or_false] at hv
  obtain rfl | rfl | rfl | rfl | rfl | rfl | rfl | rfl | rfl | rfl | rfl | rfl | rfl | rfl | rfl | rfl := hv <;>
    exact ⟨rfl, rfl⟩

/-! ## The text of 30_encoding.md R80 -/

theorem test_text_f1 : assemble "F1".toList = some [0x10#8] ∧ assemble "RAW 070102".toList = some [0x07#8, 0x01#8, 0x02#8] := by
  decide +kernel

theorem test_text_response :
    responseText .f1 (hex 10 0x00084a9ffac354dfafb3) = some "-> OK MAC_A=4a9ffac354dfafb3".toList ∧
    responseText .f1 [0x05#8] = some "-> ERR_NO_CONTEXT".toList := by decide +kernel

/-! ## The byte operations (95_test_vectors.md sections 2 and 4) -/

theorem test_aes_fips :
    aesEncrypt (str 16 0x2b7e151628aed2a6abf7158809cf4f3c) (str 16 0x3243f6a8885a308d313198a2e0370734) =
      str 16 0x3925841d02dc09fbdc118597196a0b32 := by decide +kernel

/-- V-ROT-6 and V-ROT-8. -/
theorem test_rotl :
    rotl (str 16 0x534a4bb402734529f993ac100b4dcd0d) 4 = str 16 0x02734529f993ac100b4dcd0d534a4bb4 ∧
    rotl (str 16 0x534a4bb402734529f993ac100b4dcd0d) 12 = str 16 0x0b4dcd0d534a4bb402734529f993ac10 := by decide

/-- 95_test_vectors.md section 1, IN1. -/
theorem test_in1 : in1 ts1.sqn ts1.amf = str 16 0xff9bb4d0b607b9b9ff9bb4d0b607b9b9 := by decide

/-! ## The commands

`F1`, `COMPUTE_OPC` and `NEW_CTX_OP` run AES itself; the other f-commands run on the answers of the vectors, which
`test_f1` and `test_aes_fips` tie to AES. -/

/-- V-OPC-1: the response, and the one request. -/
theorem test_computeOpc :
    answer (hex 35 0x0110cdc202d5123e20f62b6d676ac72cb31810465b5ce8b199b49faa5f0a2ee238a6bc) State.reset =
      some (hex 18 0x0010cd63cb71954a9f4e48a5994e37a02baf) ∧
    traceOf (hex 35 0x0110cdc202d5123e20f62b6d676ac72cb31810465b5ce8b199b49faa5f0a2ee238a6bc) (coreWith []) =
      [⟨str 16 k1, str 16 op1⟩] := by decide +kernel

/-- V-CTX-11: the ones context replaces TS1 whole. -/
theorem test_newCtxOp :
    slotAfter (hex 62 0x0210ffffffffffffffffffffffffffffffff10ffffffffffffffffffffffffffffffff10ffffffffffffffffffffffffffffffff06ffffffffffff02ffff) coreTs1 =
      some (.held ⟨str 16 0xffffffffffffffffffffffffffffffff, str 16 0x4340de834d7f30cf4dae8fade6c54686,
        str 16 0xffffffffffffffffffffffffffffffff, str 6 0xffffffffffff, str 2 0xffff⟩) := by decide +kernel

/-- V-CTX-1, from reset. -/
theorem test_newCtxOpc :
    slotAfter (hex 62 0x0310465b5ce8b199b49faa5f0a2ee238a6bc10cd63cb71954a9f4e48a5994e37a02baf1023553cbe9637a89d218ae64dae47bf3506ff9bb4d0b60702b9b9) State.reset =
      some (.held ts1) := by decide +kernel

/-- V-CTX-3 and V-CTX-16. -/
theorem test_setSqn :
    slotAfter (hex 8 0x0406000000000001) coreTs1 = some (.held { ts1 with sqn := str 6 1 }) ∧
    answer (hex 8 0x0406ff9bb4d0b607) State.reset = some [0x05#8] := by decide +kernel

/-- V-CTX-7 and V-CTX-17. -/
theorem test_setAmf :
    slotAfter (hex 4 0x05020000) coreTs1 = some (.held { ts1 with amf := str 2 0 }) ∧
    answer (hex 4 0x0502b9b9) State.reset = some [0x05#8] := by decide +kernel

/-- V-CTX-13 and V-CTX-15. -/
theorem test_discard :
    slotAfter [0x06#8] coreTs1 = some .noContext ∧ answer [0x06#8] State.reset = some [0x00#8] := by decide +kernel

/-- V-F-1 and, after `SET_SQN`, V-CTX-4. -/
theorem test_f1 :
    answer [0x10#8] coreTs1 = some (hex 10 0x00084a9ffac354dfafb3) ∧
    answer [0x10#8] { coreTs1 with slot := .held { ts1 with sqn := str 6 1 } } =
      some (hex 10 0x0008833c482c42b47779) := by decide +kernel

/-- The trace of `F1`: TEMP's block and ROT1 (43_f1_f1star.md R151). -/
theorem test_f1_trace :
    traceOf [0x10#8] (coreWith vectors) =
      [⟨str 16 k1, str 16 0xee36f7cf037d37d3692f7f0399e7949a⟩,
       ⟨str 16 k1, str 16 0x2917ad5b169e487183ce4aff1fa0c055⟩] := by decide +kernel

/-- V-F-2. -/
theorem test_f1star : answer [0x11#8] (coreWith vectors) = some (hex 10 0x000801cfaf9ec4e871e9) := by decide +kernel

/-- V-F-3. -/
theorem test_f2 : answer [0x12#8] (coreWith vectors) = some (hex 10 0x0008a54211d5e3ba50bf) := by decide +kernel

/-- V-F-4 (a right rotation would give V-NEG-1). -/
theorem test_f3 : answer [0x13#8] (coreWith vectors) = some (hex 18 0x0010b40ba9a3c58b2a05bbf0d987b21bf8cb) := by
  decide +kernel

/-- V-F-5. -/
theorem test_f4 : answer [0x14#8] (coreWith vectors) = some (hex 18 0x0010f769bcd751044604127672711c6d3441) := by
  decide +kernel

/-- V-F-6. -/
theorem test_f5 : answer [0x15#8] (coreWith vectors) = some (hex 8 0x0006aa689c648370) := by decide +kernel

/-- V-F-7 (a right rotation would give V-NEG-2). -/
theorem test_f5star : answer [0x16#8] (coreWith vectors) = some (hex 8 0x0006451e8beca43b) := by decide +kernel

/-- V-F-8. -/
theorem test_f2345 :
    answer [0x17#8] (coreWith vectors) =
      some (hex 51 0x0008a54211d5e3ba50bf10b40ba9a3c58b2a05bbf0d987b21bf8cb10f769bcd751044604127672711c6d344106aa689c648370) := by
  decide +kernel

/-- The four blocks of `F2345`, in order (95_test_vectors.md section 1.4). -/
theorem test_f2345_trace :
    (traceOf [0x17#8] (coreWith vectors)).map Request.block =
      [str 16 0xee36f7cf037d37d3692f7f0399e7949a, str 16 0x534a4bb402734529f993ac100b4dcd0c,
       str 16 0x02734529f993ac100b4dcd0d534a4bb6, str 16 0xf993ac100b4dcd0d534a4bb40273452d] := by decide +kernel

/-! ## Cipher errors, a silent primitive, reset -/

/-- Section 5.4: with a primitive that answers `CipherError` the response is `02`, the trace holds the one
failing request, and the state is unchanged. -/
theorem test_cipherError :
    step (sent [0x13#8] (coreWith [⟨tempReq, .cipherError⟩])) =
      .next (emit (coreWith [⟨tempReq, .cipherError⟩]) [0x02#8] [tempReq]) := eq_next (by decide +kernel)

/-- A primitive that never answers leaves the core stuck (93_implementation_defined.md U8). -/
theorem test_silent : step (sent [0x13#8] (coreWith [])) = .fault (.primitiveSilent [tempReq]) :=
  eq_fault (by decide +kernel)

/-- Reset during `F1` when one request has been issued (70_reset_and_hazards.md R241). -/
theorem test_resetDuringF1 :
    step { coreTs1 with commandPort := [.frameThenReset [0x10#8] 1] } =
      .next { State.reset with bindingTrace := [tempReq] } := eq_next (by decide +kernel)

/-- Reset between commands (R240). -/
theorem test_reset : step { coreTs1 with commandPort := [.reset] } = .next State.reset := rfl

/-! ## Witnesses: states and operands that meet the hypotheses of the statements -/

theorem witness_ResetEventEndsContext :
    ({ coreTs1 with commandPort := [.reset] } : State).commandPort = .reset :: [] := rfl

/-- Both clauses: a command that ends, and one that gets stuck. -/
theorem witness_ResetDuringCommandAbandonsIt :
    ({ coreTs1 with commandPort := [.frameThenReset [0x13#8] 1] } : State).commandPort =
      .frameThenReset [0x13#8] 1 :: [] ∧
    runFrame [0x13#8] (coreWith [⟨tempReq, .cipherError⟩]) =
      .next (emit (coreWith [⟨tempReq, .cipherError⟩]) [0x02#8] [tempReq]) ∧
    Appends (coreWith [⟨tempReq, .cipherError⟩])
      (emit (coreWith [⟨tempReq, .cipherError⟩]) [0x02#8] [tempReq]) [[0x02#8]] [tempReq] ∧
    runFrame [0x13#8] (coreWith []) = .fault (.primitiveSilent [tempReq]) :=
  ⟨rfl, eq_next (by decide +kernel), ⟨rfl, rfl⟩, eq_fault (by decide +kernel)⟩

theorem witness_IdleCoreHoldsItsState : coreTs1.commandPort = [] := rfl

theorem witness_StepRunsTheDecodedCommand :
    (sent [0x10#8] coreTs1).commandPort = .frame [0x10#8] :: [] ∧ decode [0x10#8] = .ok .f1 := ⟨rfl, rfl⟩

theorem witness_UndecodableFrameIsAnswered :
    (sent [0x07#8] coreTs1).commandPort = .frame [0x07#8] :: [] ∧ decode [0x07#8] = .error .errOpcode :=
  ⟨rfl, rfl⟩

theorem witness_DecodeOfEncodeIsTheCommand :
    Instr.wellFormed (.newCtxOp (hex 16 k1) (hex 16 op1) (hex 16 rand1) (hex 6 1) (hex 2 1)) = true := by decide

theorem witness_AcceptedFrameIsItsCommandsFrame :
    decode [0x05#8, 0x02#8, 0x00#8, 0x01#8] = .ok (.setAmf [0x00#8, 0x01#8]) := rfl

/-- The ends of the reserved ranges. -/
theorem witness_ReservedOpcodesAreRefused :
    (∀ b ∈ [0x00#8, 0x07#8, 0x0f#8, 0x18#8, 0xff#8],
      b = 0x00#8 ∨ (0x07#8 ≤ b ∧ b ≤ 0x0f#8) ∨ 0x18#8 ≤ b) ∧
    (sent [0xff#8, 0x01#8] State.reset).commandPort = .frame (0xff#8 :: [0x01#8]) :: [] := ⟨by decide, rfl⟩

/-- A missing `LEN` byte, data past the end, a byte left over. -/
theorem witness_FrameErrorExactlyForBrokenStructure :
    decode [0x05#8] = .error .errFrame ∧ decode [0x05#8, 0x02#8, 0x00#8] = .error .errFrame ∧
    decode [0x05#8, 0x00#8, 0x00#8] = .error .errFrame ∧ decode [] = .error .errFrame := ⟨rfl, rfl, rfl, rfl⟩

theorem witness_LengthErrorExactlyForWrongOperands :
    [0x05#8, 0x00#8] = encode (.setAmf []) ∧ Instr.wellFormed (.setAmf []) = false ∧
    decode [0x05#8, 0x00#8] = .error .errLength ∧
    (sent [0x05#8, 0x00#8] coreTs1).commandPort = .frame [0x05#8, 0x00#8] :: [] ∧
    Instr.operands .discard = [] := ⟨rfl, rfl, rfl, rfl, rfl⟩

/-- Every clause: the empty frame; a reserved byte; a structure that is broken though the length it would show
is wrong too; a wrong length on a core without a context; no context with a primitive that would refuse; and with
a context a request that is refused, and one that is answered. -/
theorem witness_ChecksFailInOrder :
    (sent [] State.reset).commandPort = .frame [] :: [] ∧
    (∀ o : Opcode, o.byte ≠ 0x07#8) ∧ (∀ o : Opcode, o.byte ≠ 0x18#8) ∧
    splitFields Opcode.setSqn.operandLens.length [0x05#8, 0x00#8] = none ∧
    ([hex 5 0].length = Opcode.setSqn.operandLens.length ∧ (∀ d ∈ [hex 5 0], d.length ≤ 255) ∧
      [hex 5 0].map List.length ≠ Opcode.setSqn.operandLens ∧ ctxValid State.reset = false) ∧
    ([hex 255 0].length = Opcode.setSqn.operandLens.length ∧ (∀ d ∈ [hex 255 0], d.length ≤ 255)) ∧
    (([] : List (List Byte)).map List.length = Opcode.f1.operandLens ∧ Opcode.f1 ∈ contextOpcodes ∧
      ctxValid coreTs1 = true ∧
      nextOf (step (sent [0x10#8] (coreWith [⟨tempReq, .cipherError⟩]))) =
        some (emit (coreWith [⟨tempReq, .cipherError⟩]) [0x02#8] ([] ++ [tempReq])) ∧
      (nextOf (step (sent [0x10#8] (coreWith vectors)))).isSome = true) := by
  refine ⟨rfl, fun o => ?_, fun o => ?_, rfl, ⟨rfl, ?_, ?_, rfl⟩, ⟨rfl, ?_⟩, rfl, by decide, rfl, ?_, ?_⟩
  · cases o <;> decide
  · cases o <;> decide
  · simp [hex, (str _ _).len]
  · simp [hex, (str _ _).len, Opcode.operandLens]
  · simp [hex, (str _ _).len]
  · decide +kernel
  · decide +kernel

theorem witness_CommandTextAssemblesToItsFrame : Instr.wellFormed (.setSqn (hex 6 1)) = true := by decide

/-- A state with a response behind it, and a step that adds one. -/
theorem witness_StepKeepsResponsesLegal :
    ResponsesLegal (sent [0x10#8] { coreWith vectors with responsePort := [[0x05#8]] }) ∧
    ∃ t, step (sent [0x10#8] { coreWith vectors with responsePort := [[0x05#8]] }) = .next t := by
  refine ⟨fun f hf => ?_, exists_next (by decide +kernel)⟩
  obtain rfl : f = [0x05#8] := by simpa [sent] using hf
  exact ⟨.f1, .inr ⟨.errNoContext, by decide, rfl⟩⟩

theorem witness_ResponseLengthsAreTheTables : ∃ t, exec .f2345 (coreWith vectors) = .next t :=
  exists_next (by decide +kernel)

/-- A decoder error and a cipher error. -/
theorem witness_ErrorsChangeNothing :
    runFrame [0x07#8] coreTs1 = .next (emit coreTs1 [0x03#8] []) ∧
    (emit coreTs1 [0x03#8] []).responsePort = coreTs1.responsePort ++ [[0x03#8]] ∧
    [0x03#8].head? ≠ some 0x00#8 ∧
    runFrame [0x13#8] (coreWith [⟨tempReq, .cipherError⟩]) =
      .next (emit (coreWith [⟨tempReq, .cipherError⟩]) [0x02#8] [tempReq]) ∧ [0x02#8].head? ≠ some 0x00#8 :=
  ⟨rfl, rfl, by decide, eq_next (by decide +kernel), by decide⟩

theorem witness_ErrorLeavesNextFrameUnaffected :
    runFrame [0x07#8] coreTs1 = .next (emit coreTs1 [0x03#8] []) ∧
    (emit coreTs1 [0x03#8] []).responsePort = coreTs1.responsePort ++ [[0x03#8]] ∧
    [0x03#8].head? ≠ some 0x00#8 := ⟨rfl, rfl, by decide⟩

theorem witness_NoContextErrorExactly :
    exec .f1 State.reset = .next (emit State.reset [0x05#8] []) ∧ ctxValid State.reset = false ∧
    Instr.f1 ∈ fCommands := ⟨rfl, rfl, by decide⟩

theorem witness_RotationIsLeftByBytes : (0 < 16 ∧ 15 < 16) ∧ (rotl (str 16 1) 15).byte 0 = 0x01#8 := by decide

theorem witness_PipelineIsTheTemplate :
    cipherAnswer .aes128 ⟨ts1.k, bxor (rotl (bxor temp1 ts1.opc) 12) (cbyte 0x08#8)⟩ =
      .block (str 16 0x887d409d3171e7aeb1e55195635d0a6e) := by decide +kernel

/-- The cases of a field walk: not walkable, a wrong length, the right lengths. -/
theorem witness_FormatV :
    splitFields 1 [0x02#8] = none ∧
    (splitFields 1 [0x01#8, 0x00#8] = some [[0x00#8]] ∧ [[0x00#8]].map List.length ≠ [2]) ∧
    (splitFields 1 [0x02#8, 0x00#8, 0x00#8] = some [[0x00#8, 0x00#8]] ∧
      [[0x00#8, 0x00#8]].map List.length = [2]) := by decide

/-- The request refused; the request answered. -/
theorem witness_ComputeOpcRespondsWithOpc :
    cipherAnswer (.tabulated [⟨⟨str 16 k1, str 16 op1⟩, .cipherError⟩]) ⟨str 16 k1, str 16 op1⟩ = .cipherError ∧
    cipherAnswer .aes128 ⟨str 16 k1, str 16 op1⟩ = .block (str 16 0x00a1c9a48774bfb863c8fe24f08c98b7) := by
  decide +kernel

/-- The same for `NEW_CTX_OP`. -/
theorem witness_NewCtxOpDerivesOpcAndLoads :
    cipherAnswer (.tabulated [⟨⟨str 16 k1, str 16 op1⟩, .cipherError⟩]) ⟨str 16 k1, str 16 op1⟩ = .cipherError ∧
    cipherAnswer .aes128 ⟨str 16 k1, str 16 op1⟩ = .block (str 16 0x00a1c9a48774bfb863c8fe24f08c98b7) := by
  decide +kernel

/-- The field walks of `FormatV` for five fields; the load itself has no hypothesis. -/
theorem witness_NewCtxOpcLoadsAsGiven :
    splitFields 5 [] = none ∧
    splitFields 5 [0x00#8, 0x00#8, 0x00#8, 0x00#8, 0x00#8] = some [[], [], [], [], []] ∧
    [hex 16 0, hex 16 0, hex 16 0, hex 6 0, hex 2 0].map List.length = [16, 16, 16, 6, 2] := by decide

theorem witness_SetSqnWritesSqnOnly : State.reset.slot = .noContext ∧ coreTs1.slot = .held ts1 := ⟨rfl, rfl⟩

theorem witness_SetAmfWritesAmfOnly : State.reset.slot = .noContext ∧ coreTs1.slot = .held ts1 := ⟨rfl, rfl⟩

theorem witness_DiscardEndsTheContext : State.reset.slot = .noContext := rfl

/-- States that meet the hypotheses of each clause of `SingleFunctionRule` with the pipeline block `input`: no
context; TEMP refused; TEMP answered and the second request refused; both answered. -/
abbrev SingleWitness (input : Context → Block → Block) : Prop :=
  State.reset.slot = .noContext ∧ coreTs1.slot = .held ts1 ∧
  cipherAnswer (coreWith [⟨tempRequest ts1, .cipherError⟩]).primitive (tempRequest ts1) = .cipherError ∧
  (cipherAnswer (coreWith [⟨tempRequest ts1, .block temp1⟩, ⟨⟨ts1.k, input ts1 temp1⟩, .cipherError⟩]).primitive
      (tempRequest ts1) = .block temp1 ∧
    cipherAnswer (coreWith [⟨tempRequest ts1, .block temp1⟩, ⟨⟨ts1.k, input ts1 temp1⟩, .cipherError⟩]).primitive
      ⟨ts1.k, input ts1 temp1⟩ = .cipherError) ∧
  (cipherAnswer (coreWith [⟨tempRequest ts1, .block temp1⟩, ⟨⟨ts1.k, input ts1 temp1⟩, .block zeroBlock⟩]).primitive
      (tempRequest ts1) = .block temp1 ∧
    cipherAnswer (coreWith [⟨tempRequest ts1, .block temp1⟩, ⟨⟨ts1.k, input ts1 temp1⟩, .block zeroBlock⟩]).primitive
      ⟨ts1.k, input ts1 temp1⟩ = .block zeroBlock)

theorem witness_F1RespondsWithMacA :
    SingleWitness (fun c temp => bxor (rotl (bxor (in1 c.sqn c.amf) c.opc) 8) temp) := by decide +kernel

theorem witness_F1starRespondsWithMacS :
    SingleWitness (fun c temp => bxor (rotl (bxor (in1 c.sqn c.amf) c.opc) 8) temp) := by decide +kernel

theorem witness_F2RespondsWithRes :
    SingleWitness (fun c temp => bxor (bxor temp c.opc) (cbyte 0x01#8)) := by decide +kernel

theorem witness_F3RespondsWithCk :
    SingleWitness (fun c temp => bxor (rotl (bxor temp c.opc) 4) (cbyte 0x02#8)) := by decide +kernel

theorem witness_F4RespondsWithIk :
    SingleWitness (fun c temp => bxor (rotl (bxor temp c.opc) 8) (cbyte 0x04#8)) := by decide +kernel

theorem witness_F5RespondsWithAk :
    SingleWitness (fun c temp => bxor (bxor temp c.opc) (cbyte 0x01#8)) := by decide +kernel

theorem witness_F5starRespondsWithAkStar :
    SingleWitness (fun c temp => bxor (rotl (bxor temp c.opc) 12) (cbyte 0x08#8)) := by decide +kernel

/-- The three later requests of `F2345` on TS1 (95_test_vectors.md section 1.4). -/
def q2 : Request := ⟨ts1.k, bxor (bxor temp1 ts1.opc) (cbyte 0x01#8)⟩
def q3 : Request := ⟨ts1.k, bxor (rotl (bxor temp1 ts1.opc) 4) (cbyte 0x02#8)⟩
def q4 : Request := ⟨ts1.k, bxor (rotl (bxor temp1 ts1.opc) 8) (cbyte 0x04#8)⟩

/-- Primitives that refuse the second, the third and the fourth request. -/
def refuse2 : Primitive := .tabulated [⟨tempRequest ts1, .block temp1⟩, ⟨q2, .cipherError⟩]
def refuse3 : Primitive :=
  .tabulated [⟨tempRequest ts1, .block temp1⟩, ⟨q2, .block zeroBlock⟩, ⟨q3, .cipherError⟩]
def refuse4 : Primitive :=
  .tabulated [⟨tempRequest ts1, .block temp1⟩, ⟨q2, .block zeroBlock⟩, ⟨q3, .block zeroBlock⟩, ⟨q4, .cipherError⟩]

/-- Each request refused after the earlier ones were answered, and all answered. -/
theorem witness_F2345RespondsWithAllFour :
    State.reset.slot = .noContext ∧ coreTs1.slot = .held ts1 ∧
    cipherAnswer (.tabulated [⟨tempRequest ts1, .cipherError⟩]) (tempRequest ts1) = .cipherError ∧
    (cipherAnswer refuse2 (tempRequest ts1) = .block temp1 ∧ cipherAnswer refuse2 q2 = .cipherError) ∧
    (cipherAnswer refuse3 (tempRequest ts1) = .block temp1 ∧ cipherAnswer refuse3 q2 = .block zeroBlock ∧
      cipherAnswer refuse3 q3 = .cipherError) ∧
    (cipherAnswer refuse4 (tempRequest ts1) = .block temp1 ∧ cipherAnswer refuse4 q2 = .block zeroBlock ∧
      cipherAnswer refuse4 q3 = .block zeroBlock ∧ cipherAnswer refuse4 q4 = .cipherError) ∧
    (∀ q ∈ [tempRequest ts1, q2, q3, q4], ∃ row ∈ vectors, row.request = q ∧ row.answer ≠ .cipherError ∧
      cipherAnswer (coreWith vectors).primitive q = row.answer) := by decide +kernel

/-- V-F-8 read field by field. -/
theorem witness_CombinedEqualsSingleFunctions :
    ∃ t, exec .f2345 (coreWith vectors) = .next t ∧
      t.responsePort = (coreWith vectors).responsePort ++
        [hex 51 0x0008a54211d5e3ba50bf10b40ba9a3c58b2a05bbf0d987b21bf8cb10f769bcd751044604127672711c6d344106aa689c648370] ∧
      readResponse 4 (hex 51 0x0008a54211d5e3ba50bf10b40ba9a3c58b2a05bbf0d987b21bf8cb10f769bcd751044604127672711c6d344106aa689c648370) =
        some (.ok, [hex 8 0xa54211d5e3ba50bf, hex 16 0xb40ba9a3c58b2a05bbf0d987b21bf8cb,
        hex 16 0xf769bcd751044604127672711c6d3441, hex 6 0xaa689c648370]) := by
  have h : (nextOf (exec .f2345 (coreWith vectors))).map State.responsePort =
      some [hex 51 0x0008a54211d5e3ba50bf10b40ba9a3c58b2a05bbf0d987b21bf8cb10f769bcd751044604127672711c6d344106aa689c648370] := by
    decide +kernel
  obtain ⟨t, ht, hr⟩ := Option.map_eq_some_iff.1 h
  exact ⟨t, eq_next ht, hr, by decide +kernel⟩

theorem witness_ComputingCommandsWriteNoRegister :
    (Instr.f1 ∈ fCommands ∨ ∃ op k, Instr.f1 = .computeOpc op k) ∧ ∃ t, exec .f1 (coreWith vectors) = .next t :=
  ⟨.inl (by decide), exists_next (by decide +kernel)⟩

theorem witness_ContextRegistersAreWrittenAsTabled : ∃ t, exec (.setSqn (hex 6 1)) coreTs1 = .next t :=
  exists_next (by decide +kernel)

/-- All three clauses. -/
theorem witness_ContextLifecycle :
    exec .discard coreTs1 = .next (emit State.reset [0x00#8] []) ∧
    (emit State.reset [0x00#8] []).responsePort = coreTs1.responsePort ++ [[0x00#8]] ∧
    decode [0x07#8] = .error .errOpcode ∧ runFrame [0x07#8] coreTs1 = .next (emit coreTs1 [0x03#8] []) ∧
    (∀ f, HostEvent.reset ≠ .frame f) ∧ step { coreTs1 with commandPort := [.reset] } = .next State.reset :=
  ⟨rfl, rfl, rfl, rfl, by simp, rfl⟩

theorem witness_RequestCountsAreTheTables :
    exec .discard coreTs1 = .next (emit State.reset [0x00#8] []) ∧
    (emit State.reset [0x00#8] []).responsePort = coreTs1.responsePort ++ [[0x00#8]] ∧
    [0x00#8].head? = some 0x00#8 := ⟨rfl, rfl, rfl⟩

theorem witness_RequestsUseTheRightKey : tempReq ∈ issuedBy (coreWith vectors) (exec .f1 (coreWith vectors)) := by decide +kernel

theorem witness_FunctionCommandsBeginWithTemp : Instr.f5star ∈ fCommands ∧ coreTs1.slot = .held ts1 :=
  ⟨by decide, rfl⟩

/-- Two cores on contexts that differ in SQN and AMF alone. -/
theorem witness_OnlyF1DependsOnSqnAndAmf :
    Instr.f2 ∈ fCommands ∧ Instr.f2 ≠ .f1 ∧ Instr.f2 ≠ .f1star ∧ coreTs1.slot = .held ts1 ∧
    ({ coreTs1 with slot := .held { ts1 with sqn := str 6 1, amf := str 2 0 } } : State).slot =
      .held ⟨ts1.k, ts1.opc, ts1.rand, str 6 1, str 2 0⟩ := by
  refine ⟨by decide, by decide, by decide, rfl, rfl⟩

theorem witness_ContextCommandsReadNothingBack :
    Instr.setSqn (hex 6 1) ∉ fCommands ∧ coreTs1.primitive = State.reset.primitive ∧
    ctxValid coreTs1 = ctxValid { coreTs1 with slot := .held { ts1 with k := zeroBlock } } ∧
    ctxValid coreTs1 ≠ ctxValid State.reset ∧ Instr.computeOpc (hex 16 0) (hex 16 0) ∉ fCommands := by
  refine ⟨by decide, rfl, rfl, by decide, by decide⟩

theorem witness_OpcSuppliedOrDerivedIsTheSame :
    cipherAnswer State.reset.primitive ⟨str 16 k1, str 16 op1⟩ =
      .block (str 16 0x00a1c9a48774bfb863c8fe24f08c98b7) := by decide +kernel

theorem witness_RunsDependOnContextAndFramesOnly :
    SameCore (sent [0x10#8] coreTs1) (sent [0x10#8] { coreTs1 with responsePort := [[0x05#8]] }) :=
  ⟨rfl, rfl, rfl⟩

/-- AES-128 answers every request. -/
theorem primitiveAnswers_aes128 : PrimitiveAnswers .aes128 := fun q => by simp [cipherAnswer]

theorem witness_OneResponsePerFrame :
    PrimitiveAnswers coreTs1.primitive ∧
    ({ coreTs1 with commandPort := [.frame [0x10#8], .frame [], .reset] } : State).commandPort =
      ([[0x10#8], []] : List Frame).map HostEvent.frame ++ [.reset] := ⟨primitiveAnswers_aes128, rfl⟩

theorem witness_StepKeepsThePrimitive : ∃ t, step (sent [0x06#8] coreTs1) = .next t :=
  exists_next (by decide +kernel)

theorem witness_StepEndsWhenThePrimitiveAnswers : PrimitiveAnswers coreTs1.primitive := primitiveAnswers_aes128

/-- The second clause: a stop. The third: `F3` makes two requests, and with `p` the first is answered alike and
the second never. The fourth and the fifth: the first request is never answered. -/
theorem witness_OnlyASilentPrimitiveStops :
    exec .f3 (coreWith []) = .fault (.primitiveSilent [tempReq]) ∧
    (issuedBy (coreWith vectors) (exec .f3 (coreWith vectors)) = [tempReq] ++ q3 :: [] ∧
      (∀ x ∈ [tempReq], cipherAnswer (.tabulated [⟨tempReq, .block temp1⟩]) x =
        cipherAnswer (coreWith vectors).primitive x) ∧
      cipherAnswer (.tabulated [⟨tempReq, .block temp1⟩]) q3 = .noAnswer) ∧
    cipherAnswer (coreWith []).primitive ⟨str 16 k1, str 16 op1⟩ = .noAnswer ∧
    (Instr.f3 ∈ fCommands ∧ (coreWith []).slot = .held ts1 ∧
      cipherAnswer (coreWith []).primitive (tempRequest ts1) = .noAnswer) :=
  ⟨eq_fault (by decide +kernel), by decide +kernel, by decide +kernel, by decide, rfl, by decide +kernel⟩

theorem witness_IllFormedOperandsAnswerErrLength : Instr.wellFormed (.setSqn (hex 5 0)) = false := by decide

theorem witness_AesNeverRaisesCipherError : coreTs1.primitive = .aes128 := rfl

end Sys2Proof.Tests
end

/-! ## Proofs about the state (10_state.md): layers on the laws, then the obligations -/

namespace Sys2Proof.Proofs.Answers

/-! Comparing two outcomes from outside: what `Appends`, `SameCore`, `SameAnswer` and `SameRun` give, and when two
finished runs are alike. -/

open Sys2Proof.Machine Sys2Proof.Safety Sys2Proof.Laws

variable {s t s' t' : State} {rs rs' : List Frame} {qs qs' : List Request}
  {a b : Host.Outcome State Fault Refusal}

theorem appends_refl (s : State) : Appends s s [] [] := ⟨by simp, by simp⟩

theorem appends_trans (h : Appends s s' rs qs) (h' : Appends s' t rs' qs') :
    Appends s t (rs ++ rs') (qs ++ qs') := by
  obtain ⟨hr, hq⟩ := h
  obtain ⟨hr', hq'⟩ := h'
  exact ⟨by simp [hr', hr], by simp [hq', hq]⟩

/-- What was issued between two states is read off the outcome. -/
theorem issuedBy_next_of_appends (h : Appends s s' rs qs) : issuedBy s (.next s') = qs := by
  simp [issuedBy, h.2]

/-- A command that answers a next state sent one response and appended the requests of its run. -/
theorem exec_next_appends {i : Instr} (h : exec i s = .next t) :
    ∃ r, Appends s t [r] (commandRun i s).issued := by
  obtain ⟨-, -, hq, ⟨e, -, -, hr⟩ | ⟨e, -, -, -, hr⟩⟩ := exec_next h
  · exact ⟨okFrame e.fields, hr, hq⟩
  · exact ⟨errorFrame e, hr, hq⟩

/-- A command that answers a next state leaves the slot, or its run is done and says which slot it leaves. -/
theorem exec_next_slot {i : Instr} (h : exec i s = .next t) :
    t.slot = s.slot ∨ ∃ e, (commandRun i s).ending = .done e ∧ t.slot = e.slot := by
  obtain ⟨-, -, -, ⟨e, he, hs, -⟩ | ⟨-, -, -, hs, -⟩⟩ := exec_next h
  · exact .inr ⟨e, he, hs⟩
  · exact .inl hs

theorem sameRun_next (hs : Appends s s' rs qs) (ht : Appends t t' rs qs) (hc : SameCore s' t') :
    SameRun s t (.next s') (.next t') :=
  ⟨⟨rs, qs, hs, ht⟩, fun _ _ h h' => by cases h; cases h'; exact hc⟩

theorem sameRun_fault (r : Fault) : SameRun s t (.fault r) (.fault r) := ⟨rfl, fun _ _ h => nomatch h⟩

theorem sameRun_refused (r : Refusal) : SameRun s t (.refused r) (.refused r) := ⟨rfl, fun _ _ h => nomatch h⟩

/-- All that two runs alike can be: next states with the same appended and equal cores, or the same stop. -/
theorem sameRun_cases (h : SameRun s t a b) :
    (∃ s' t' rs qs, a = .next s' ∧ b = .next t' ∧ Appends s s' rs qs ∧ Appends t t' rs qs ∧ SameCore s' t') ∨
    (∃ r, a = .fault r ∧ b = .fault r) ∨ (∃ r, a = .refused r ∧ b = .refused r) := by
  obtain ⟨hans, hcore⟩ := h
  cases a <;> cases b
  case next.next s' t' =>
    obtain ⟨rs, qs, hs, ht⟩ := hans
    exact .inl ⟨s', t', rs, qs, rfl, rfl, hs, ht, hcore s' t' rfl rfl⟩
  case fault.fault r r' => cases hans; exact .inr (.inl ⟨r, rfl, rfl⟩)
  case refused.refused r r' => cases hans; exact .inr (.inr ⟨r, rfl, rfl⟩)
  all_goals exact hans.elim

/-- Runs that are alike are still alike with the same stretch before both. -/
theorem sameRun_prepend (hs : Appends s s' rs qs) (ht : Appends t t' rs qs) (h : SameRun s' t' a b) :
    SameRun s t a b := by
  obtain ⟨u, v, rs', qs', rfl, rfl, hu, hv, hc⟩ | ⟨r, rfl, rfl⟩ | ⟨r, rfl, rfl⟩ := sameRun_cases h
  · exact sameRun_next (appends_trans hs hu) (appends_trans ht hv) hc
  · exact sameRun_fault r
  · exact sameRun_refused r

theorem issuedBy_eq_of_sameRun (h : SameRun s t a b) : issuedBy s a = issuedBy t b := by
  obtain ⟨s', t', rs, qs, rfl, rfl, hs, ht, -⟩ | ⟨r, rfl, rfl⟩ | ⟨r, rfl, rfl⟩ := sameRun_cases h
  · rw [issuedBy_next_of_appends hs, issuedBy_next_of_appends ht]
  · rfl
  · rfl

/-- One run, finished in two states with equal cores. -/
theorem finish_sameRun (h : SameCore s t) (r : Run Effect) : SameRun s t (finish s r) (finish t r) := by
  have ⟨hslot, hport, hprim⟩ := h
  cases hr : r.ending with
  | done e =>
    rw [finish_done hr, finish_done hr]
    exact sameRun_next ⟨rfl, rfl⟩ ⟨rfl, rfl⟩ ⟨rfl, hport, hprim⟩
  | raised e =>
    rw [finish_raised hr, finish_raised hr]
    exact sameRun_next ⟨rfl, rfl⟩ ⟨rfl, rfl⟩ ⟨hslot, hport, hprim⟩
  | silent =>
    rw [finish_silent hr, finish_silent hr]
    exact sameRun_fault _

/-- What the host and the binding see of a command's run: the requests and the response fields, not the slot it
leaves. -/
def visibleRun (r : Run Effect) : Run (List (List Byte)) := andThen r fun e => value e.fields

/-- Two finished runs look alike from outside when the same is visible of both; the states may differ. -/
theorem finish_sameAnswer {r r' : Run Effect} (h : visibleRun r = visibleRun r') (s t : State) :
    SameAnswer s t (finish s r) (finish t r') := by
  obtain ⟨issued, ending⟩ := r
  obtain ⟨issued', ending'⟩ := r'
  cases ending <;> cases ending' <;> simp [visibleRun, andThen] at h <;> obtain ⟨rfl, h⟩ := h
  case done.done e e' => exact ⟨[okFrame e.fields], issued, ⟨rfl, rfl⟩, ⟨by simp [h], rfl⟩⟩
  case raised.raised e e' => exact ⟨[errorFrame e], issued, ⟨rfl, rfl⟩, ⟨by simp [h], rfl⟩⟩
  case silent.silent => rfl

theorem andThen_assoc {α β γ : Type} (x : Run α) (f : α → Run β) (g : β → Run γ) :
    andThen (andThen x f) g = andThen x fun a => andThen (f a) g := by
  cases hx : x.ending with
  | done a =>
    rw [andThen_done hx, andThen_done hx]
    cases hf : (f a).ending <;> simp [andThen, hf]
  | raised e => rw [andThen_raised hx, andThen_raised hx]; rfl
  | silent => rw [andThen_silent hx, andThen_silent hx]; rfl

/-- What follows the context check and does not read the context depends on `CTX_VALID` alone. -/
theorem needContext_andThen_const {α : Type} (h : ctxValid s = ctxValid t) (r : Run α) :
    andThen (needContext s) (fun _ => r) = andThen (needContext t) (fun _ => r) := by
  obtain ⟨hs, hvs⟩ | ⟨c, hs, hvs⟩ := slot_cases s <;> obtain ⟨ht, hvt⟩ | ⟨d, ht, hvt⟩ := slot_cases t
  · rw [needContext_noContext hs, needContext_noContext ht]
  · simp [hvs, hvt] at h
  · simp [hvs, hvt] at h
  · rw [needContext_held hs, needContext_held ht, andThen_value, andThen_value]

end Sys2Proof.Proofs.Answers

namespace Sys2Proof.Proofs.NoHiddenState

/-! R32: equal cores run alike for ever. `SameCore` is a relational invariant: each layer of the sequencer keeps it
and appends the same to both records. -/

open Sys2Proof.Machine Sys2Proof.Safety Sys2Proof.Laws Sys2Proof.Proofs.Answers

variable {s t : State} {n : Nat}

theorem exec_sameRun (h : SameCore s t) (i : Instr) : SameRun s t (exec i s) (exec i t) := by
  have ⟨hslot, _, hprim⟩ := h
  rw [exec_eq_finish, exec_eq_finish, commandRun_congr hslot hprim]
  exact finish_sameRun h _

theorem runFrame_sameRun (h : SameCore s t) (f : Frame) : SameRun s t (runFrame f s) (runFrame f t) := by
  unfold runFrame
  cases decode f with
  | ok i => exact exec_sameRun h i
  | error e => exact finish_sameRun h (raise e)

theorem takeEvent_sameRun (h : SameCore s t) (e : HostEvent) :
    SameRun s t (takeEvent e s) (takeEvent e t) := by
  have ⟨_, hport, hprim⟩ := h
  cases e with
  | frame f => exact runFrame_sameRun h f
  | reset => exact sameRun_next (appends_refl s) (appends_refl t) ⟨rfl, hport, hprim⟩
  | frameThenReset f n =>
    have hissued := issuedBy_eq_of_sameRun (runFrame_sameRun h f)
    exact sameRun_next (rs := []) ⟨by simp, rfl⟩ ⟨by simp, by simp [hissued]⟩ ⟨rfl, hport, hprim⟩

theorem step_sameRun (h : SameCore s t) : SameRun s t (step s) (step t) := by
  have ⟨hslot, hport, hprim⟩ := h
  unfold step
  rw [← hport]
  cases s.commandPort with
  | nil => exact sameRun_next (appends_refl s) (appends_refl t) h
  | cons e rest =>
    exact takeEvent_sameRun (s := { s with commandPort := rest }) (t := { t with commandPort := rest })
      ⟨hslot, rfl, hprim⟩ e

/-! One more step of a run, by what that step answers. -/

theorem run_succ_of_step_next {M : Host.Core} {s s' : M.State} (h : M.step s = .next s') :
    M.run (n + 1) s = M.run n s' := by rw [Host.Core.run, h]

theorem run_succ_of_step_fault {M : Host.Core} {s : M.State} {r : M.Fault} (h : M.step s = .fault r) :
    M.run (n + 1) s = .fault r := by rw [Host.Core.run, h]

theorem run_succ_of_step_refused {M : Host.Core} {s : M.State} {r : M.Refusal} (h : M.step s = .refused r) :
    M.run (n + 1) s = .refused r := by rw [Host.Core.run, h]

theorem run_sameRun (n : Nat) (h : SameCore s t) : SameRun s t (core.run n s) (core.run n t) := by
  induction n generalizing s t with
  | zero => exact sameRun_next (appends_refl s) (appends_refl t) h
  | succ n ih =>
    obtain ⟨s', t', rs, qs, hs, ht, has, hat, hc⟩ | ⟨r, hs, ht⟩ | ⟨r, hs, ht⟩ :=
      sameRun_cases (step_sameRun h)
    · rw [run_succ_of_step_next (M := core) hs, run_succ_of_step_next (M := core) ht]
      exact sameRun_prepend has hat (ih hc)
    · rw [run_succ_of_step_fault (M := core) hs, run_succ_of_step_fault (M := core) ht]
      exact sameRun_fault r
    · rw [run_succ_of_step_refused (M := core) hs, run_succ_of_step_refused (M := core) ht]
      exact sameRun_refused r

/-- Settles O51, by induction on the number of steps: one step keeps the relation `SameCore`. -/
theorem runsDependOnContextAndFramesOnly : Obligations.RunsDependOnContextAndFramesOnly :=
  fun n _ _ h => run_sameRun n h

end Sys2Proof.Proofs.NoHiddenState

namespace Sys2Proof.Proofs.Registers

/-! R24 to R27, R221: which command writes which context register, and that none but the f-commands reads one back
to the host; the reset state of R34. -/

open Sys2Proof.Machine Sys2Proof.Safety Sys2Proof.Laws Sys2Proof.Proofs.Answers

/-- Settles O42: an error writes nothing, and the run of a computing command leaves the slot it found. -/
theorem computingCommandsWriteNoRegister : Obligations.ComputingCommandsWriteNoRegister := by
  intro i s t hi h
  obtain ⟨hport, hprim, -, -⟩ := exec_next h
  have hslot : t.slot = s.slot := by
    obtain hs | ⟨e, he, hs⟩ := exec_next_slot h
    · exact hs
    · rw [hs, done_slot hi he]
  obtain ⟨r, happ⟩ := exec_next_appends h
  exact ⟨⟨hslot, hport, hprim⟩, r, _, happ⟩

/-- A `SET_SQN` that is done found a context and writes its operand to `ctx.SQN`. -/
theorem setSqn_done {l : List Byte} {s : State} {e : Effect} (h : (commandRun (.setSqn l) s).ending = .done e) :
    ∃ (sqn : ByteString 6) (c : Context), l = sqn.bytes ∧ s.slot = .held c ∧
      e.slot = .held { c with sqn := sqn } := by
  simp only [commandRun, andThen_ending_done, value_ending] at h
  obtain ⟨sqn, hsqn, c, hc, h⟩ := h
  cases h
  exact ⟨sqn, c, (operand_done hsqn).1, needContext_ended hc, rfl⟩

/-- A `SET_AMF` that is done found a context and writes its operand to `ctx.AMF`. -/
theorem setAmf_done {l : List Byte} {s : State} {e : Effect} (h : (commandRun (.setAmf l) s).ending = .done e) :
    ∃ (amf : ByteString 2) (c : Context), l = amf.bytes ∧ s.slot = .held c ∧
      e.slot = .held { c with amf := amf } := by
  simp only [commandRun, andThen_ending_done, value_ending] at h
  obtain ⟨amf, hamf, c, hc, h⟩ := h
  cases h
  exact ⟨amf, c, (operand_done hamf).1, needContext_ended hc, rfl⟩

/-- The commands by what they may write: the whole slot, one register, or nothing. -/
theorem writer_cases (i : Instr) :
    (i.opcode = .newCtxOp ∨ i.opcode = .newCtxOpc ∨ i.opcode = .discard) ∨
    (∃ l, i = .setSqn l) ∨ (∃ l, i = .setAmf l) ∨ (i ∈ fCommands ∨ ∃ op k, i = .computeOpc op k) := by
  cases i <;> simp [Instr.opcode, fCommands]

/-- Settles O43, by what the command may write. -/
theorem contextRegistersAreWrittenAsTabled : Obligations.ContextRegistersAreWrittenAsTabled := by
  intro i s t h
  obtain ⟨hport, hprim, -, -⟩ := exec_next h
  obtain ⟨r, happ⟩ := exec_next_appends h
  refine ⟨hport, hprim, ⟨r, _, happ⟩, ?_⟩
  obtain hs | ⟨e, he, hs⟩ := exec_next_slot h
  · simp [hs]
  obtain (hi | hi | hi) | ⟨l, rfl⟩ | ⟨l, rfl⟩ | hi := writer_cases i
  · exact .inl hi
  · exact .inr (.inl hi)
  · exact .inr (.inr (.inl hi))
  · obtain ⟨sqn, c, rfl, hc, hslot⟩ := setSqn_done he
    exact .inr (.inr (.inr (.inr ⟨c, _, hc, hs.trans hslot, rfl, rfl, rfl, .inl ⟨rfl, rfl⟩⟩)))
  · obtain ⟨amf, c, rfl, hc, hslot⟩ := setAmf_done he
    exact .inr (.inr (.inr (.inr ⟨c, _, hc, hs.trans hslot, rfl, rfl, rfl, .inr ⟨rfl, rfl⟩⟩)))
  · exact .inr (.inr (.inr (.inl (hs.trans (done_slot hi he)))))

/-- What is visible of a command that is no f-command depends on the primitive and `CTX_VALID`; of `COMPUTE_OPC` on
the primitive alone. -/
theorem visibleRun_commandRun_congr {i : Instr} {s t : State} (hi : i ∉ fCommands)
    (hp : s.primitive = t.primitive) (hv : ctxValid s = ctxValid t ∨ ∃ op k, i = .computeOpc op k) :
    visibleRun (commandRun i s) = visibleRun (commandRun i t) := by
  cases i
  case computeOpc => simp only [visibleRun, commandRun, andThen_assoc, andThen_value, hp]
  case newCtxOp => simp only [visibleRun, commandRun, hp]
  case newCtxOpc => rfl
  case discard => rfl
  case setSqn =>
    obtain hv | ⟨_, _, hv⟩ := hv
    · simp only [visibleRun, commandRun, andThen_assoc, andThen_value, needContext_andThen_const hv]
    · cases hv
  case setAmf =>
    obtain hv | ⟨_, _, hv⟩ := hv
    · simp only [visibleRun, commandRun, andThen_assoc, andThen_value, needContext_andThen_const hv]
    · cases hv
  all_goals exact absurd (by decide) hi

/-- Settles O49: of the runs in the two states the same is visible. -/
theorem contextCommandsReadNothingBack : Obligations.ContextCommandsReadNothingBack := by
  intro i s t hi hp hv
  rw [exec_eq_finish, exec_eq_finish]
  exact finish_sameAnswer (visibleRun_commandRun_congr hi hp hv) s t

/-- Settles O1: each is read from the literal reset state. -/
theorem resetHoldsNoContext : Obligations.ResetHoldsNoContext :=
  ⟨rfl, rfl, rfl, rfl, rfl, rfl, rfl, rfl, rfl⟩

/-- Settles O17: no response was sent. -/
theorem resetResponsesAreLegal : Obligations.ResetResponsesAreLegal := by
  intro f hf
  exact absurd hf List.not_mem_nil

end Sys2Proof.Proofs.Registers

/-! ## Proofs about the ports (20_memory.md): what one frame does, then the obligations -/

namespace Sys2Proof.Proofs.Frames

/-! R56, R57, R107: a step on a frame runs that frame; provided the primitive answers, the frame is taken with
exactly one response, and so is each frame of a run. -/

open Sys2Proof.Machine Sys2Proof.Safety Sys2Proof.Laws Sys2Proof.Proofs.Answers Sys2Proof.Proofs.NoHiddenState

variable {s : State} {f : Frame} {rest : List HostEvent}

/-- A step with a frame at the head of the command port runs that frame. -/
theorem step_frame (h : s.commandPort = .frame f :: rest) :
    step s = runFrame f { s with commandPort := rest } := by
  simp [step, h, takeEvent]

theorem runFrame_of_decode_ok {i : Instr} (h : decode f = .ok i) (s : State) : runFrame f s = exec i s := by
  simp [runFrame, h]

/-- Settles O5: the step runs the frame, and the frame decodes to the command. -/
theorem stepRunsTheDecodedCommand : Obligations.StepRunsTheDecodedCommand := by
  intro s f rest i hport hdec
  rw [step_frame hport, runFrame_of_decode_ok hdec]

/-- A command gets stuck only at a request the primitive never answers. -/
theorem commandRun_not_silent (hp : PrimitiveAnswers s.primitive) (i : Instr) :
    (commandRun i s).ending ≠ .silent := by
  intro hsilent
  cases commandRun_shape i s with
  | refused e _ h _ => simp [hsilent] at h
  | ran hr =>
    cases hr with
    | done a h _ => simp [hsilent] at h
    | failed _ _ h _ _ _ => simp [hsilent] at h
    | stuck _ q _ _ hlast _ => exact hp q hlast

/-- Provided the primitive answers, a command ends in a next state. -/
theorem exec_next_of_primitiveAnswers (hp : PrimitiveAnswers s.primitive) (i : Instr) :
    ∃ t, exec i s = .next t := by
  obtain ⟨_, _, hn⟩ | ⟨_, _, _, hn⟩ | ⟨hsilent, _⟩ := exec_cases i s
  · exact ⟨_, hn⟩
  · exact ⟨_, hn⟩
  · exact absurd hsilent (commandRun_not_silent hp i)

/-- Provided the primitive answers, running a frame sends one response and leaves the command port and the
primitive. -/
theorem runFrame_one_response (hp : PrimitiveAnswers s.primitive) (f : Frame) :
    ∃ t r qs, runFrame f s = .next t ∧ t.commandPort = s.commandPort ∧ t.primitive = s.primitive ∧
      Appends s t [r] qs := by
  obtain ⟨e, -, -, hrun⟩ | ⟨i, -, hrun⟩ := runFrame_cases f s
  · exact ⟨_, errorFrame e, [], hrun, rfl, rfl, rfl, rfl⟩
  · obtain ⟨t, ht⟩ := exec_next_of_primitiveAnswers hp i
    obtain ⟨hport, hprim, -, -⟩ := exec_next ht
    obtain ⟨r, happ⟩ := exec_next_appends ht
    exact ⟨t, r, _, hrun.trans ht, hport, hprim, happ⟩

/-- Provided the primitive answers, a step takes the frame at the head of the command port and sends one
response. -/
theorem step_frame_one_response (hp : PrimitiveAnswers s.primitive) (h : s.commandPort = .frame f :: rest) :
    ∃ t r qs, step s = .next t ∧ t.commandPort = rest ∧ t.primitive = s.primitive ∧ Appends s t [r] qs := by
  rw [step_frame h]
  exact runFrame_one_response (s := { s with commandPort := rest }) hp f

/-- Settles O52, by induction on the frames waiting: each step takes one and sends one response, and leaves the
primitive, so that the premise holds for the next. -/
theorem oneResponsePerFrame : Obligations.OneResponsePerFrame := by
  intro frames
  induction frames with
  | nil => exact fun s rest _ hport => ⟨s, [], [], rfl, hport, appends_refl s, rfl⟩
  | cons f frames ih =>
    intro s rest hp hport
    obtain ⟨u, r, qs, hstep, huport, huprim, hu⟩ := step_frame_one_response hp hport
    obtain ⟨t, rs, qs', hrun, htport, ht, hlen⟩ := ih u rest (huprim ▸ hp) huport
    have hrun' : core.run (frames.length + 1) s = .next t := (run_succ_of_step_next (M := core) hstep).trans hrun
    exact ⟨t, [r] ++ rs, qs ++ qs', hrun', htport, appends_trans hu ht, by simp [hlen]⟩

end Sys2Proof.Proofs.Frames

/-! ## Proofs about the encoding (30_encoding.md): decoder, responses, order of the checks, text -/

namespace Sys2Proof.Proofs.Decoder

/-! R70 to R76: the decoder undoes the encoder, accepts nothing else, and refuses the reserved opcode bytes; what a
step does with a frame that does not decode. -/

open Sys2Proof.Machine Sys2Proof.Safety Sys2Proof.Laws Sys2Proof.Proofs.Frames

variable {i : Instr} {b : Byte} {o : Opcode}

/-- Every length of the operand table fits a `LEN` byte. -/
theorem operandLens_le (o : Opcode) : ∀ n ∈ o.operandLens, n ≤ 255 := by cases o <;> decide

/-- The operands of a well-formed command fit their `LEN` bytes. -/
theorem operands_length_le (hw : i.wellFormed = true) : ∀ d ∈ i.operands, d.length ≤ 255 := by
  intro d hd
  apply operandLens_le i.opcode
  rw [← (wellFormed_iff i).1 hw]
  exact List.mem_map_of_mem hd

/-- The decoder on the frame of any command that has one: after the walk only the lengths are left to check. -/
theorem decode_encode (h : ∀ d ∈ i.operands, d.length ≤ 255) :
    decode (encode i) = if i.wellFormed then .ok i else .error .errLength := by
  have walk : splitFields i.opcode.operandLens.length (i.operands.flatMap field) = some i.operands := by
    rw [← operands_length]
    exact splitFields_flatMap_field h
  simp only [encode, decode, ofByte?_byte, walk, ofParts?_parts, wellFormed_iff]

/-- Settles O8: the walk of the fields gives the operands back, and their lengths are the table's. -/
theorem decodeOfEncodeIsTheCommand : Obligations.DecodeOfEncodeIsTheCommand := by
  intro i hw
  rw [decode_encode (operands_length_le hw), if_pos hw]

/-- Settles O9: of all the decoder can answer, only the frame of a well-formed command is accepted. -/
theorem acceptedFrameIsItsCommandsFrame : Obligations.AcceptedFrameIsItsCommandsFrame := by
  intro f i h
  obtain ⟨-, hd⟩ | ⟨-, -, -, -, hd⟩ | ⟨-, -, -, -, hd⟩ | ⟨j, rfl, -, hd⟩ := decode_cases f
  · cases hd.symm.trans h
  · cases hd.symm.trans h
  · cases hd.symm.trans h
  · cases hw : j.wellFormed <;> rw [hw] at hd <;> cases hd.symm.trans h
    exact ⟨hw, rfl⟩

theorem decode_reserved (hb : Opcode.ofByte? b = none) (rest : Frame) : decode (b :: rest) = .error .errOpcode := by
  simp [decode, hb]

/-- The first byte alone decides about `ERR_OPCODE`. -/
theorem decode_cons_eq_errOpcode {rest : Frame} :
    decode (b :: rest) = .error .errOpcode ↔ Opcode.ofByte? b = none := by
  refine ⟨fun h => ?_, fun hb => decode_reserved hb rest⟩
  obtain ⟨hf, -⟩ | ⟨b', _, hf, hb, -⟩ | ⟨_, _, -, -, hd⟩ | ⟨i, -, -, hd⟩ := decode_cases (b :: rest)
  · cases hf
  · cases hf; exact hb
  · cases hd.symm.trans h
  · cases hw : i.wellFormed <;> rw [hw] at hd <;> cases hd.symm.trans h

/-- R75: the bytes no row of the table has. -/
theorem reserved_iff : ∀ b : Byte,
    (b = 0x00#8 ∨ (0x07#8 ≤ b ∧ b ≤ 0x0f#8) ∨ 0x18#8 ≤ b) ↔ Opcode.ofByte? b = none := by decide

/-- A step on a frame that does not decode answers the status byte and does nothing else. -/
theorem step_of_decode_error {s : State} {f : Frame} {rest : List HostEvent} {e : Status}
    (hport : s.commandPort = .frame f :: rest) (hdec : decode f = .error e) :
    step s = .next (emit { s with commandPort := rest } [e.byte] []) := by
  rw [step_frame hport, runFrame, hdec]
  rfl

/-- Settles O6: the step runs the frame, and the frame's error is raised with nothing issued. -/
theorem undecodableFrameIsAnswered : Obligations.UndecodableFrameIsAnswered :=
  fun _ _ _ _ hport hdec => step_of_decode_error hport hdec

/-- Settles O10: the bytes listed are those without a row in the table, and those the decoder refuses. -/
theorem reservedOpcodesAreRefused : Obligations.ReservedOpcodesAreRefused := by
  refine ⟨fun b => ?_, by decide +kernel, fun s b more rest hb hport => ?_⟩
  · simp only [reserved_iff b, decode_cons_eq_errOpcode, forall_const]
  · exact step_of_decode_error hport (decode_reserved ((reserved_iff b).1 hb) more)

/-- Settles O7: the decoder evaluates each frame. -/
theorem sampleFramesDecode : Obligations.SampleFramesDecode := ⟨rfl, rfl, rfl, rfl, rfl, rfl, rfl⟩

/-- Settles O13: the bits are read from the opcode bytes of the table. -/
theorem functionSelectIsTheOpcodesLowBits : Obligations.FunctionSelectIsTheOpcodesLowBits :=
  ⟨by decide, rfl, rfl, rfl, rfl, rfl, rfl, rfl, rfl⟩

end Sys2Proof.Proofs.Decoder

namespace Sys2Proof.Proofs.Responses

/-! R78, R79: every command that ends sends one response that is legal for its opcode. -/

open Sys2Proof.Machine Sys2Proof.Safety Sys2Proof.Laws

variable {s t : State} {f : Frame} {i : Instr}

/-- A command that ends sends one response, legal for its opcode. -/
theorem exec_response_legal (h : exec i s = .next t) :
    ∃ r, t.responsePort = s.responsePort ++ [r] ∧ LegalResponseTo i.opcode r := by
  obtain ⟨-, -, -, ⟨e, he, -, hr⟩ | ⟨e, hne, -, -, hr⟩⟩ := exec_next h
  · exact ⟨_, hr, .inl ⟨e.fields, rfl, done_fields he⟩⟩
  · exact ⟨_, hr, .inr ⟨e, hne, rfl⟩⟩

/-- A frame whose running ends is answered by one legal response; to a frame that does not decode, one that is
legal for every opcode. -/
theorem runFrame_response_legal (h : runFrame f s = .next t) :
    ∃ r, t.responsePort = s.responsePort ++ [r] ∧ LegalResponse r := by
  obtain ⟨e, hne, -, hrun⟩ | ⟨i, -, hrun⟩ := runFrame_cases f s
  · cases hrun.symm.trans h
    exact ⟨errorFrame e, rfl, .discard, .inr ⟨e, hne, rfl⟩⟩
  · obtain ⟨r, hr, hlegal⟩ := exec_response_legal (hrun.symm.trans h)
    exact ⟨r, hr, i.opcode, hlegal⟩

theorem responsesLegal_append {r : Frame} (hs : ResponsesLegal s) (ht : t.responsePort = s.responsePort ++ [r])
    (hr : LegalResponse r) : ResponsesLegal t := by
  intro f hf
  rw [ht, List.mem_append, List.mem_singleton] at hf
  obtain hf | rfl := hf
  · exact hs f hf
  · exact hr

/-- Every event of the host keeps the responses legal: a frame adds a legal one, a reset adds none. -/
theorem takeEvent_keeps_responsesLegal {e : HostEvent} (hs : ResponsesLegal s) (h : takeEvent e s = .next t) :
    ResponsesLegal t := by
  cases e with
  | frame f =>
    obtain ⟨r, hr, hlegal⟩ := runFrame_response_legal h
    exact responsesLegal_append hs hr hlegal
  | reset => cases h; exact hs
  | frameThenReset f n => cases h; exact hs

/-- Settles O16, by the event the step takes. -/
theorem stepKeepsResponsesLegal : Obligations.StepKeepsResponsesLegal := by
  intro s t hs h
  obtain ⟨-, hstep⟩ | ⟨e, rest, -, hstep⟩ := step_cases s
  · cases hstep.symm.trans h
    exact hs
  · exact takeEvent_keeps_responsesLegal (s := { s with commandPort := rest }) hs (hstep.symm.trans h)

/-- An `OK` response is the status byte and each field after its `LEN` byte. -/
theorem length_okFrame (fields : List (List Byte)) :
    (okFrame fields).length = ((fields.map List.length).map (· + 1)).sum + 1 := by
  simp [okFrame, field, List.length_flatMap, Function.comp_def]

/-- Settles O18: the response is legal for the opcode, and the fields of the opcode's row add up to the length of
the table. -/
theorem responseLengthsAreTheTables : Obligations.ResponseLengthsAreTheTables := by
  intro i s t h
  obtain ⟨r, hr, ⟨fields, rfl, hlens⟩ | ⟨e, hne, rfl⟩⟩ := exec_response_legal h
  · refine ⟨_, hr, ?_⟩
    rw [if_pos (head_okFrame fields), length_okFrame, hlens]
    cases i <;> rfl
  · refine ⟨_, hr, ?_⟩
    rw [if_neg (by simpa using byte_ne_zero hne)]
    rfl

end Sys2Proof.Proofs.Responses

namespace Sys2Proof.Proofs.CheckOrder

/-! R217: what is left of a command once its frame is accepted is the context check and then its requests. -/

open Sys2Proof.Machine Sys2Proof.Safety Sys2Proof.Laws Sys2Proof.Proofs.Frames Sys2Proof.Proofs.Decoder

variable {s t : State} {i : Instr} {o : Opcode} {fs : List (List Byte)} {p : Primitive}

theorem operand_right {n : Nat} {l : List Byte} (h : l.length = n) : operand n l = value ⟨l, h⟩ :=
  operand_bytes ⟨l, h⟩

theorem requestsOnly_operand_andThen {α : Type} {n : Nat} {l : List Byte} {f : ByteString n → Run α}
    (h : l.length = n) (hf : ∀ x, RequestsOnly p (f x)) : RequestsOnly p (andThen (operand n l) f) := by
  rw [operand_right h, andThen_value]
  exact hf _

/-- The context check before requests: it refuses, or only requests are left. -/
theorem needContext_andThen_cases {f : Context → Run Effect} (hf : ∀ c, RequestsOnly p (f c)) :
    (ctxValid s = false ∧ andThen (needContext s) f = raise .errNoContext) ∨
    (ctxValid s = true ∧ RequestsOnly p (andThen (needContext s) f)) := by
  obtain ⟨hs, hv⟩ | ⟨c, hs, hv⟩ := slot_cases s
  · exact .inl ⟨hv, by rw [needContext_noContext hs, andThen_raise]⟩
  · exact .inr ⟨hv, by rw [needContext_held hs, andThen_value]; exact hf c⟩

/-- An f-command checks the context, then makes its requests. -/
theorem commandRun_fCommand_cases (hi : i ∈ fCommands) (s : State) :
    (ctxValid s = false ∧ commandRun i s = raise .errNoContext) ∨
    (ctxValid s = true ∧ RequestsOnly s.primitive (commandRun i s)) := by
  rw [commandRun_fCommand hi]
  exact needContext_andThen_cases fun _ =>
    requestsOnly_andThen (requestsOnly_selectedFunction _ _) fun _ => requestsOnly_value _

/-- All that a well-formed command can be: one that needs a context, which the check decides about, or one that
makes its requests in every state. -/
theorem commandRun_of_wellFormed (hw : i.wellFormed = true) (s : State) :
    (i.opcode ∈ contextOpcodes ∧
      ((ctxValid s = false ∧ commandRun i s = raise .errNoContext) ∨
       (ctxValid s = true ∧ RequestsOnly s.primitive (commandRun i s)))) ∨
    (i.opcode ∉ contextOpcodes ∧ RequestsOnly s.primitive (commandRun i s)) := by
  cases i
  case computeOpc =>
    obtain ⟨hop, hk⟩ : _ ∧ _ := by simpa [Instr.wellFormed] using hw
    exact .inr ⟨(by decide : Opcode.computeOpc ∉ contextOpcodes),
      requestsOnly_operand_andThen hop fun _ => requestsOnly_operand_andThen hk fun _ =>
      requestsOnly_andThen (requestsOnly_computeOpc _ _) fun _ => requestsOnly_value _⟩
  case newCtxOp =>
    obtain ⟨⟨⟨⟨hk, hop⟩, hrand⟩, hsqn⟩, hamf⟩ : (((_ ∧ _) ∧ _) ∧ _) ∧ _ := by
      simpa [Instr.wellFormed] using hw
    exact .inr ⟨(by decide : Opcode.newCtxOp ∉ contextOpcodes),
      requestsOnly_operand_andThen hk fun _ => requestsOnly_operand_andThen hop fun _ =>
      requestsOnly_operand_andThen hrand fun _ => requestsOnly_operand_andThen hsqn fun _ =>
      requestsOnly_operand_andThen hamf fun _ =>
      requestsOnly_andThen (requestsOnly_computeOpc _ _) fun _ => requestsOnly_value _⟩
  case newCtxOpc =>
    obtain ⟨⟨⟨⟨hk, hopc⟩, hrand⟩, hsqn⟩, hamf⟩ : (((_ ∧ _) ∧ _) ∧ _) ∧ _ := by
      simpa [Instr.wellFormed] using hw
    exact .inr ⟨(by decide : Opcode.newCtxOpc ∉ contextOpcodes),
      requestsOnly_operand_andThen hk fun _ => requestsOnly_operand_andThen hopc fun _ =>
      requestsOnly_operand_andThen hrand fun _ => requestsOnly_operand_andThen hsqn fun _ =>
      requestsOnly_operand_andThen hamf fun _ => requestsOnly_value _⟩
  case setSqn sqn =>
    have hsqn : sqn.length = 6 := by simpa [Instr.wellFormed, Config.sqnLen] using hw
    rw [commandRun, operand_right hsqn, andThen_value]
    exact .inl ⟨(by decide : Opcode.setSqn ∈ contextOpcodes),
      needContext_andThen_cases fun _ => requestsOnly_value _⟩
  case setAmf amf =>
    have hamf : amf.length = 2 := by simpa [Instr.wellFormed, Config.amfLen] using hw
    rw [commandRun, operand_right hamf, andThen_value]
    exact .inl ⟨(by decide : Opcode.setAmf ∈ contextOpcodes),
      needContext_andThen_cases fun _ => requestsOnly_value _⟩
  case discard => exact .inr ⟨by decide, requestsOnly_value _⟩
  all_goals exact .inl ⟨by decide, commandRun_fCommand_cases (by decide) s⟩

/-- When only requests are left and they end: all were answered and the response is `OK`, or the last one was
refused and the response is `ERR_CIPHER` alone. -/
theorem finish_next_of_requestsOnly {r : Run Effect} (hr : RequestsOnly s.primitive r) (h : finish s r = .next t) :
    (∃ fields qs, Appends s t [okFrame fields] qs ∧ ∀ x ∈ qs, ∃ b, cipherAnswer s.primitive x = .block b) ∨
    ∃ qs q, t = emit s [0x02#8] (qs ++ [q]) ∧ cipherAnswer s.primitive q = .cipherError ∧
      ∀ x ∈ qs, ∃ b, cipherAnswer s.primitive x = .block b := by
  cases hr with
  | done e he answered =>
    rw [finish_done he] at h
    cases h
    exact .inl ⟨e.fields, r.issued, ⟨rfl, rfl⟩, answered⟩
  | failed qs q he issued last answered =>
    rw [finish_raised he, issued] at h
    cases h
    exact .inr ⟨qs, q, rfl, last, answered⟩
  | stuck _ _ he _ _ _ => rw [finish_silent he] at h; cases h

/-- Fields of the opcode's number are the operands of a command. -/
theorem exists_instr_of_parts (h : fs.length = o.operandLens.length) :
    ∃ i : Instr, i.opcode = o ∧ i.operands = fs := by
  obtain ⟨i, hi⟩ := Option.isSome_iff_exists.1 (ofParts?_isSome h)
  obtain ⟨rfl, rfl⟩ := ofParts?_eq_some hi
  exact ⟨i, rfl, rfl⟩

/-- A known opcode whose tail is not its number of fields is `ERR_FRAME`. -/
theorem decode_broken {tail : List Byte}
    (h : ¬ ∃ fs : List (List Byte), fs.length = o.operandLens.length ∧ (∀ d ∈ fs, d.length ≤ 255) ∧
      tail = fs.flatMap field) : decode (o.byte :: tail) = .error .errFrame := by
  have walk : splitFields o.operandLens.length tail = none := by
    cases hs : splitFields o.operandLens.length tail with
    | none => rfl
    | some fs => exact absurd ⟨fs, splitFields_eq_some hs⟩ h
  simp only [decode, ofByte?_byte, walk]

/-- Settles O14: the decoder's checks by the decoder's laws, the context check and the requests by what the run of a
well-formed command can be. -/
theorem checksFailInOrder : Obligations.ChecksFailInOrder := by
  intro s f rest hport u
  refine ⟨?_, ?_, ?_⟩
  · rintro rfl
    exact step_of_decode_error hport rfl
  · rintro b tail rfl hb
    exact step_of_decode_error hport (decode_reserved (ofByte?_eq_none.2 hb) tail)
  rintro o tail rfl
  refine ⟨fun hbroken => step_of_decode_error hport (decode_broken hbroken), ?_⟩
  rintro fs hcount hle rfl
  obtain ⟨i, rfl, rfl⟩ := exists_instr_of_parts hcount
  have hdec := decode_encode hle
  refine ⟨fun hlens => ?_, fun hlens => ?_⟩
  · rw [if_neg (mt (wellFormed_iff i).1 hlens)] at hdec
    exact step_of_decode_error hport hdec
  have hw := (wellFormed_iff i).2 hlens
  rw [if_pos hw] at hdec
  have hstep : step s = finish u (commandRun i u) :=
    (stepRunsTheDecodedCommand s _ rest i hport hdec).trans (exec_eq_finish i u)
  rw [hstep]
  obtain ⟨hctx, ⟨hv, hrun⟩ | ⟨hv, hrun⟩⟩ | ⟨hctx, hrun⟩ := commandRun_of_wellFormed hw u
  · have hs : ctxValid s = false := hv
    exact ⟨fun _ _ => by rw [hrun]; rfl, fun hvalid => absurd (hs.symm.trans (hvalid hctx)) Bool.false_ne_true⟩
  · have hs : ctxValid s = true := hv
    exact ⟨fun _ hnone => absurd (hnone.symm.trans hs) Bool.false_ne_true, fun _ _ => finish_next_of_requestsOnly hrun⟩
  · exact ⟨fun hneeds => absurd hneeds hctx, fun _ _ => finish_next_of_requestsOnly hrun⟩

end Sys2Proof.Proofs.CheckOrder

namespace Sys2Proof.Proofs.Text

/-! R80: the text of a command is split into its words, and each word gives its operand back. -/

open Sys2Proof.Laws Sys2Proof.Proofs.Decoder

/-! Words: no word of a command's text has a space in it. -/

theorem splitWords_word {w : List Char} (hw : ' ' ∉ w) : splitWords w = [w] := by
  induction w with
  | nil => rfl
  | cons c w ih =>
    rw [List.mem_cons, not_or] at hw
    obtain ⟨hc, hw⟩ := hw
    simp [splitWords, Ne.symm hc, ih hw]

theorem splitWords_word_space {w : List Char} (hw : ' ' ∉ w) (rest : List Char) :
    splitWords (w ++ ' ' :: rest) = w :: splitWords rest := by
  induction w with
  | nil => simp [splitWords]
  | cons c w ih =>
    rw [List.mem_cons, not_or] at hw
    obtain ⟨hc, hw⟩ := hw
    simp [splitWords, Ne.symm hc, ih hw]

/-- A word and further words, each after a space, are split into these words. -/
theorem splitWords_words {w : List Char} (hw : ' ' ∉ w) {ws : List (List Char)} (hws : ∀ v ∈ ws, ' ' ∉ v) :
    splitWords (w ++ ws.flatMap (' ' :: ·)) = w :: ws := by
  induction ws generalizing w with
  | nil => simpa using splitWords_word hw
  | cons v vs ih =>
    obtain ⟨hv, hvs⟩ := List.forall_mem_cons.1 hws
    rw [List.flatMap_cons, List.cons_append, splitWords_word_space hw, ih hv hvs]

/-! Hex digits. -/

theorem hexValue_hexDigit : ∀ n < 16, hexValue (hexDigits.getD n '0') = some n := by decide

theorem hexDigit_ne_space : ∀ n < 16, hexDigits.getD n '0' ≠ ' ' := by decide

theorem space_notMem_hexText (l : List Byte) : ' ' ∉ hexText l := by
  intro h
  obtain ⟨b, -, hb⟩ := List.mem_flatMap.1 h
  have hlt : b.toNat < 256 := b.isLt
  simp only [List.mem_cons, List.not_mem_nil, or_false] at hb
  obtain hb | hb := hb
  · exact hexDigit_ne_space _ (by omega) hb.symm
  · exact hexDigit_ne_space _ (by omega) hb.symm

/-- The hex text of bytes is read back: the two digits of a byte are its quotient and remainder by 16. -/
theorem readHex_hexText (l : List Byte) : readHex (hexText l) = some l := by
  induction l with
  | nil => rfl
  | cons b l ih =>
    have hlt : b.toNat < 256 := b.isLt
    have hhigh := hexValue_hexDigit (b.toNat / 16) (by omega)
    have hlow := hexValue_hexDigit (b.toNat % 16) (by omega)
    have hread : readHex (hexText (b :: l)) = some (BitVec.ofNat 8 (16 * (b.toNat / 16) + b.toNat % 16) :: l) := by
      change readHex (_ :: _ :: hexText l) = _
      simp only [readHex, hhigh, hlow, ih]
    rw [hread, Nat.div_add_mod, BitVec.ofNat_toNat, BitVec.setWidth_eq]

/-! Operand words. -/

/-- The word `name=<hex>` of an operand. -/
def operandWord (name : String) (d : List Byte) : List Char := name.toList ++ '=' :: hexText d

theorem namedFields_eq_words (names : List String) (values : List (List Byte)) :
    namedFields names values = (List.zipWith operandWord names values).flatMap (' ' :: ·) := by
  rw [← List.map_uncurry_zip_eq_zipWith, List.flatMap_map]
  rfl

theorem readOperand_operandWord (name : String) {d : List Byte} (hd : d.length ≤ 255) :
    readOperand name (operandWord name d) = some d := by
  have hsplit : operandWord name d = (name.toList ++ ['=']) ++ hexText d := by simp [operandWord]
  have hfront : (name.toList ++ ['=']).isPrefixOf (operandWord name d) = true := by
    simp [hsplit, -List.append_assoc]
  have hdrop : (operandWord name d).drop (name.toList.length + 1) = hexText d := by
    rw [hsplit]
    exact List.drop_left' (by simp)
  simp only [readOperand, hfront, hdrop, readHex_hexText, if_pos, hd]

/-- The operand words are read back one by one. -/
theorem readOperands_operandWords {names : List String} {values : List (List Byte)}
    (hlen : names.length = values.length) (hle : ∀ d ∈ values, d.length ≤ 255) :
    readOperands names (List.zipWith operandWord names values) = some values := by
  induction names generalizing values with
  | nil => cases values with
    | nil => rfl
    | cons d ds => cases hlen
  | cons n ns ih => cases values with
    | nil => cases hlen
    | cons d ds =>
      obtain ⟨hd, hds⟩ := List.forall_mem_cons.1 hle
      simp only [List.zipWith_cons_cons, readOperands, readOperand_operandWord n hd,
        ih (Nat.succ.inj hlen) hds]

/-! The tables of mnemonics and operand names. -/

theorem find_mnemonic (o : Opcode) :
    Opcode.all.find? (fun p => p.mnemonic.toList == o.mnemonic.toList) = some o := by
  cases o <;> decide

theorem mnemonic_ne_raw (o : Opcode) : o.mnemonic.toList ≠ ['R', 'A', 'W'] := by cases o <;> decide

theorem space_notMem_mnemonic (o : Opcode) : ' ' ∉ o.mnemonic.toList := by cases o <;> decide

theorem space_notMem_operandNames (o : Opcode) : ∀ n ∈ o.operandNames, ' ' ∉ n.toList := by cases o <;> decide

theorem operandNames_length (o : Opcode) : o.operandNames.length = o.operandLens.length := by cases o <;> rfl

theorem space_notMem_operandWords (i : Instr) :
    ∀ w ∈ List.zipWith operandWord i.opcode.operandNames i.operands, ' ' ∉ w := by
  intro w hw
  rw [← List.map_uncurry_zip_eq_zipWith] at hw
  obtain ⟨⟨n, d⟩, hnd, rfl⟩ := List.mem_map.1 hw
  have hn := space_notMem_operandNames _ n (List.of_mem_zip hnd).1
  simp [Function.uncurry, operandWord, hn, space_notMem_hexText]

/-- Settles O15: the text is split into the mnemonic and the operand words; the mnemonic finds the opcode, the words
give the operands, and these are the parts of the command. -/
theorem commandTextAssemblesToItsFrame : Obligations.CommandTextAssemblesToItsFrame := by
  intro i hw
  have hwords : splitWords (commandText i) =
      i.opcode.mnemonic.toList :: List.zipWith operandWord i.opcode.operandNames i.operands := by
    rw [commandText, namedFields_eq_words]
    exact splitWords_words (space_notMem_mnemonic _) (space_notMem_operandWords i)
  have hread : readOperands i.opcode.operandNames (List.zipWith operandWord i.opcode.operandNames i.operands) =
      some i.operands :=
    readOperands_operandWords (by rw [operandNames_length, operands_length]) (operands_length_le hw)
  simp only [assemble, hwords, if_neg (mnemonic_ne_raw _), find_mnemonic, hread, ofParts?_parts, Option.map_some]

end Sys2Proof.Proofs.Text

/-! ## Proofs about the cipher binding (40_aes_binding.md): requests, answers, and AES-128 of annex A -/

namespace Sys2Proof.Proofs.CipherBinding

/-! R102, R103, R105 to R107: how many requests a command makes and under which key, and what the primitive's answers
decide about how it ends. -/

open Sys2Proof.Machine Sys2Proof.Safety Sys2Proof.Laws Sys2Proof.Proofs.Frames

variable {α β : Type} {p : Primitive}

/-! ### The requests of a run that is done (R105) -/

/-- If the run is done, it made exactly `n` requests. -/
def RequestsWhenDone (n : Nat) (x : Run α) : Prop := ∀ a, x.ending = .done a → x.issued.length = n

theorem requestsWhenDone_value (a : α) : RequestsWhenDone 0 (value a) := fun _ _ => rfl

theorem requestsWhenDone_checks {x : Run α} (hx : ChecksOnly x) : RequestsWhenDone 0 x :=
  fun _ _ => by simp [hx.issued]

theorem requestsWhenDone_encrypt (k b : Block) : RequestsWhenDone 1 (encrypt p k b) := fun _ _ => rfl

/-- The requests of the two parts add up. -/
theorem requestsWhenDone_andThen {m n : Nat} {x : Run α} {f : α → Run β} (hx : RequestsWhenDone m x)
    (hf : ∀ a, RequestsWhenDone n (f a)) : RequestsWhenDone (m + n) (andThen x f) := by
  intro b hb
  obtain ⟨a, ha, hfa⟩ := andThen_ending_done.1 hb
  rw [andThen_done ha, List.length_append, hx a ha, hf a b hfa]

/-- A check before a run adds no request. -/
theorem requestsWhenDone_check_andThen {n : Nat} {x : Run α} {f : α → Run β} (hx : ChecksOnly x)
    (hf : ∀ a, RequestsWhenDone n (f a)) : RequestsWhenDone n (andThen x f) := by
  simpa using requestsWhenDone_andThen (requestsWhenDone_checks hx) hf

theorem requestsWhenDone_computeOpc (op k : Block) : RequestsWhenDone 1 (computeOpc p op k) :=
  requestsWhenDone_andThen (requestsWhenDone_encrypt k op) fun _ => requestsWhenDone_value _

theorem requestsWhenDone_pipe (c : Context) (a b : Block) (r : Nat) (k : Byte) :
    RequestsWhenDone 1 (pipe p c a b r k) :=
  requestsWhenDone_andThen (requestsWhenDone_encrypt _ _) fun _ => requestsWhenDone_value _

/-- TEMP and one pipeline run. -/
theorem requestsWhenDone_singleFunction (c : Context) (row : MuxRow) :
    RequestsWhenDone 2 (singleFunction p c row) :=
  requestsWhenDone_andThen (requestsWhenDone_encrypt _ _) fun _ =>
    requestsWhenDone_andThen (requestsWhenDone_pipe _ _ _ _ _) fun _ => requestsWhenDone_value _

/-- TEMP and three pipeline runs. -/
theorem requestsWhenDone_combinedFunction (c : Context) : RequestsWhenDone 4 (combinedFunction p c) :=
  requestsWhenDone_andThen (requestsWhenDone_encrypt _ _) fun _ =>
    requestsWhenDone_andThen (requestsWhenDone_pipe _ _ _ _ _) fun _ =>
    requestsWhenDone_andThen (requestsWhenDone_pipe _ _ _ _ _) fun _ =>
    requestsWhenDone_andThen (requestsWhenDone_pipe _ _ _ _ _) fun _ => requestsWhenDone_value _

/-- An f-command makes the requests of its function. -/
theorem requestsWhenDone_functionCommand {n : Nat} {s : State} {f : BitVec 3}
    (h : ∀ c, RequestsWhenDone n (selectedFunction s.primitive c f)) :
    RequestsWhenDone n (functionCommand s f) := by
  intro e he
  obtain ⟨c, -, -, hdone, hissued⟩ := functionCommand_done he
  rw [hissued, h c _ hdone]

/-- The number of requests of a command (40_aes_binding.md R105). -/
def requestCount : Instr → Nat
  | .computeOpc _ _ | .newCtxOp _ _ _ _ _ => 1
  | .newCtxOpc _ _ _ _ _ | .setSqn _ | .setAmf _ | .discard => 0
  | .f1 | .f1star | .f2 | .f3 | .f4 | .f5 | .f5star => 2
  | .f2345 => 4

theorem requestsWhenDone_commandRun (i : Instr) (s : State) :
    RequestsWhenDone (requestCount i) (commandRun i s) := by
  have single (row : MuxRow) (f : BitVec 3)
      (h : ∀ c, selectedFunction s.primitive c f = singleFunction s.primitive c row) :
      RequestsWhenDone 2 (functionCommand s f) :=
    requestsWhenDone_functionCommand fun c => h c ▸ requestsWhenDone_singleFunction c row
  cases i with
  | computeOpc op k =>
    exact requestsWhenDone_check_andThen (checksOnly_operand _) fun _ =>
      requestsWhenDone_check_andThen (checksOnly_operand _) fun _ =>
      requestsWhenDone_andThen (requestsWhenDone_computeOpc _ _) fun _ => requestsWhenDone_value _
  | newCtxOp k op rand sqn amf =>
    exact requestsWhenDone_check_andThen (checksOnly_operand _) fun _ =>
      requestsWhenDone_check_andThen (checksOnly_operand _) fun _ =>
      requestsWhenDone_check_andThen (checksOnly_operand _) fun _ =>
      requestsWhenDone_check_andThen (checksOnly_operand _) fun _ =>
      requestsWhenDone_check_andThen (checksOnly_operand _) fun _ =>
      requestsWhenDone_andThen (requestsWhenDone_computeOpc _ _) fun _ => requestsWhenDone_value _
  | newCtxOpc k opc rand sqn amf =>
    exact requestsWhenDone_check_andThen (checksOnly_operand _) fun _ =>
      requestsWhenDone_check_andThen (checksOnly_operand _) fun _ =>
      requestsWhenDone_check_andThen (checksOnly_operand _) fun _ =>
      requestsWhenDone_check_andThen (checksOnly_operand _) fun _ =>
      requestsWhenDone_check_andThen (checksOnly_operand _) fun _ => requestsWhenDone_value _
  | setSqn sqn =>
    exact requestsWhenDone_check_andThen (checksOnly_operand _) fun _ =>
      requestsWhenDone_check_andThen (checksOnly_needContext s) fun _ => requestsWhenDone_value _
  | setAmf amf =>
    exact requestsWhenDone_check_andThen (checksOnly_operand _) fun _ =>
      requestsWhenDone_check_andThen (checksOnly_needContext s) fun _ => requestsWhenDone_value _
  | discard => exact requestsWhenDone_value _
  | f1 => exact single _ _ (selectedFunction_f1 _)
  | f1star => exact single _ _ (selectedFunction_f1star _)
  | f2 => exact single _ _ (selectedFunction_f2 _)
  | f3 => exact single _ _ (selectedFunction_f3 _)
  | f4 => exact single _ _ (selectedFunction_f4 _)
  | f5 => exact single _ _ (selectedFunction_f5 _)
  | f5star => exact single _ _ (selectedFunction_f5star _)
  | f2345 => exact requestsWhenDone_functionCommand requestsWhenDone_combinedFunction

/-- A command whose response begins with the byte of `OK` is done. -/
theorem exec_ok_done {i : Instr} {s t : State} {r : Frame} (h : exec i s = .next t)
    (hr : t.responsePort = s.responsePort ++ [r]) (hok : r.head? = some 0x00#8) :
    ∃ e, (commandRun i s).ending = .done e := by
  obtain ⟨-, -, -, ⟨e, he, -, -⟩ | ⟨e, hne, -, -, hr'⟩⟩ := exec_next h
  · exact ⟨e, he⟩
  · obtain rfl : r = errorFrame e := by simpa [hr] using hr'
    exact absurd (by simpa using hok) (byte_ne_zero hne)

/-- Settles O45: an `OK` response is that of a run that is done, whose requests the trace gained. -/
theorem requestCountsAreTheTables : Obligations.RequestCountsAreTheTables := by
  intro i s t r h hr hok
  obtain ⟨e, he⟩ := exec_ok_done h hr hok
  obtain ⟨-, -, htrace, -⟩ := exec_next h
  have hcount := requestsWhenDone_commandRun i s e he
  rw [htrace, List.length_append, hcount]
  cases i <;> rfl

/-! ### The key of a request (R106) -/

/-- Every request of the run has the key `k`. -/
def RequestsUnderKey (k : Block) (x : Run α) : Prop := ∀ q ∈ x.issued, q.key = k

variable {k : Block}

theorem requestsUnderKey_value (a : α) : RequestsUnderKey k (value a) := fun _ hq => nomatch hq

theorem requestsUnderKey_encrypt (b : Block) : RequestsUnderKey k (encrypt p k b) := by
  simp [RequestsUnderKey]

theorem requestsUnderKey_andThen {x : Run α} {f : α → Run β} (hx : RequestsUnderKey k x)
    (hf : ∀ a, RequestsUnderKey k (f a)) : RequestsUnderKey k (andThen x f) := by
  intro q hq
  obtain hq | ⟨a, -, hq⟩ := mem_andThen_issued hq
  · exact hx q hq
  · exact hf a q hq

theorem requestsUnderKey_computeOpc (op : Block) : RequestsUnderKey k (computeOpc p op k) :=
  requestsUnderKey_andThen (requestsUnderKey_encrypt op) fun _ => requestsUnderKey_value _

theorem requestsUnderKey_pipe (c : Context) (a b : Block) (r : Nat) (x : Byte) :
    RequestsUnderKey c.k (pipe p c a b r x) :=
  requestsUnderKey_andThen (requestsUnderKey_encrypt _) fun _ => requestsUnderKey_value _

/-- Every request of a function has `ctx.K` as its key. -/
theorem requestsUnderKey_selectedFunction (c : Context) (f : BitVec 3) :
    RequestsUnderKey c.k (selectedFunction p c f) := by
  unfold selectedFunction
  split
  · exact requestsUnderKey_andThen (requestsUnderKey_encrypt _) fun _ =>
      requestsUnderKey_andThen (requestsUnderKey_pipe _ _ _ _ _) fun _ => requestsUnderKey_value _
  · exact requestsUnderKey_andThen (requestsUnderKey_encrypt _) fun _ =>
      requestsUnderKey_andThen (requestsUnderKey_pipe _ _ _ _ _) fun _ =>
      requestsUnderKey_andThen (requestsUnderKey_pipe _ _ _ _ _) fun _ =>
      requestsUnderKey_andThen (requestsUnderKey_pipe _ _ _ _ _) fun _ => requestsUnderKey_value _

/-- A request after a check is one of the run that follows it. -/
theorem mem_check_andThen {x : Run α} {f : α → Run β} {q : Request} (hx : ChecksOnly x)
    (h : q ∈ (andThen x f).issued) : ∃ a, x.ending = .done a ∧ q ∈ (f a).issued := by
  obtain hq | ha := mem_andThen_issued h
  · simp [hx.issued] at hq
  · exact ha

/-- A request after an operand was read is one of the run on the value of the operand. -/
theorem mem_operand_andThen {n : Nat} {l : List Byte} {f : ByteString n → Run β} {q : Request}
    (h : q ∈ (andThen (operand n l) f).issued) : ∃ x : ByteString n, l = x.bytes ∧ q ∈ (f x).issued := by
  obtain ⟨x, hx, hq⟩ := mem_check_andThen (checksOnly_operand l) h
  exact ⟨x, (operand_done hx).1, hq⟩

/-- A request of an f-command has `ctx.K` as its key. -/
theorem functionCommand_key {s : State} {f : BitVec 3} {q : Request} (h : q ∈ (functionCommand s f).issued) :
    ctxK s = some q.key := by
  obtain ⟨c, hc, hq⟩ := mem_check_andThen (checksOnly_needContext s) h
  have hkey := requestsUnderKey_andThen (requestsUnderKey_selectedFunction c f)
    (fun _ => requestsUnderKey_value _) q hq
  simp [ctxK, needContext_ended hc, heldContext, hkey]

/-- Settles O46, by the command: the operand that was read is the key, or the context that was found holds it. -/
theorem requestsUseTheRightKey : Obligations.RequestsUseTheRightKey := by
  intro i s q hq
  rw [issuedBy_exec] at hq
  have ofFunction (hi : i ∈ fCommands) : i ∈ fCommands ∧ ctxK s = some q.key := by
    rw [commandRun_fCommand hi] at hq
    exact ⟨hi, functionCommand_key hq⟩
  cases i with
  | computeOpc op k =>
    obtain ⟨op', -, hq⟩ := mem_operand_andThen hq
    obtain ⟨k', hk, hq⟩ := mem_operand_andThen hq
    obtain rfl := requestsUnderKey_andThen (requestsUnderKey_computeOpc op') (fun _ => requestsUnderKey_value _) q hq
    exact .inl ⟨op, by rw [hk]⟩
  | newCtxOp k op rand sqn amf =>
    obtain ⟨k', hk, hq⟩ := mem_operand_andThen hq
    obtain ⟨op', -, hq⟩ := mem_operand_andThen hq
    obtain ⟨_, -, hq⟩ := mem_operand_andThen hq
    obtain ⟨_, -, hq⟩ := mem_operand_andThen hq
    obtain ⟨_, -, hq⟩ := mem_operand_andThen hq
    obtain rfl := requestsUnderKey_andThen (requestsUnderKey_computeOpc op') (fun _ => requestsUnderKey_value _) q hq
    exact .inr (.inl ⟨op, rand, sqn, amf, by rw [hk]⟩)
  | newCtxOpc k opc rand sqn amf =>
    obtain ⟨_, -, hq⟩ := mem_operand_andThen hq
    obtain ⟨_, -, hq⟩ := mem_operand_andThen hq
    obtain ⟨_, -, hq⟩ := mem_operand_andThen hq
    obtain ⟨_, -, hq⟩ := mem_operand_andThen hq
    obtain ⟨_, -, hq⟩ := mem_operand_andThen hq
    cases hq
  | setSqn sqn =>
    obtain ⟨_, -, hq⟩ := mem_operand_andThen hq
    obtain ⟨_, -, hq⟩ := mem_check_andThen (checksOnly_needContext s) hq
    cases hq
  | setAmf amf =>
    obtain ⟨_, -, hq⟩ := mem_operand_andThen hq
    obtain ⟨_, -, hq⟩ := mem_check_andThen (checksOnly_needContext s) hq
    cases hq
  | discard => cases hq
  | f1 => exact .inr (.inr (ofFunction (by decide)))
  | f1star => exact .inr (.inr (ofFunction (by decide)))
  | f2 => exact .inr (.inr (ofFunction (by decide)))
  | f3 => exact .inr (.inr (ofFunction (by decide)))
  | f4 => exact .inr (.inr (ofFunction (by decide)))
  | f5 => exact .inr (.inr (ofFunction (by decide)))
  | f5star => exact .inr (.inr (ofFunction (by decide)))
  | f2345 => exact .inr (.inr (ofFunction (by decide)))

/-! ### The primitive through a step (R103, R107) -/

theorem runFrame_keeps_primitive {f : Frame} {s t : State} (h : runFrame f s = .next t) :
    t.primitive = s.primitive := by
  obtain ⟨e, -, -, hrun⟩ | ⟨i, -, hrun⟩ := runFrame_cases f s
  · cases hrun.symm.trans h
    rfl
  · obtain ⟨-, hprim, -, -⟩ := exec_next (hrun.symm.trans h)
    exact hprim

theorem takeEvent_keeps_primitive {e : HostEvent} {s t : State} (h : takeEvent e s = .next t) :
    t.primitive = s.primitive := by
  cases e with
  | frame f => exact runFrame_keeps_primitive h
  | reset => cases h; rfl
  | frameThenReset f n => cases h; rfl

/-- Settles O53, by the event the step takes. -/
theorem stepKeepsThePrimitive : Obligations.StepKeepsThePrimitive := by
  intro s t h
  have hprim : t.primitive = s.primitive := by
    obtain ⟨-, hstep⟩ | ⟨e, rest, -, hstep⟩ := step_cases s
    · cases hstep.symm.trans h
      rfl
    · exact takeEvent_keeps_primitive (s := { s with commandPort := rest }) (hstep.symm.trans h)
  exact ⟨hprim, fun q => by rw [hprim]⟩

/-- Provided the primitive answers, every event of the host is taken to a next state. -/
theorem takeEvent_next_of_primitiveAnswers {s : State} (hp : PrimitiveAnswers s.primitive) (e : HostEvent) :
    ∃ t, takeEvent e s = .next t := by
  cases e with
  | frame f =>
    obtain ⟨t, -, -, hrun, -⟩ := runFrame_one_response hp f
    exact ⟨t, hrun⟩
  | reset => exact ⟨_, rfl⟩
  | frameThenReset f n => exact ⟨_, rfl⟩

/-- Settles O54, by the event the step takes. -/
theorem stepEndsWhenThePrimitiveAnswers : Obligations.StepEndsWhenThePrimitiveAnswers := by
  intro s hp
  obtain ⟨-, hstep⟩ | ⟨e, rest, -, hstep⟩ := step_cases s
  · exact ⟨s, hstep⟩
  · rw [hstep]
    exact takeEvent_next_of_primitiveAnswers (s := { s with commandPort := rest }) hp e

/-! ### Where a silent primitive stops a run (R107) -/

/-- A run, as a function of the primitive, follows the answers: with a primitive that answers its requests alike it
is the same run, and with one that answers the requests before `q` alike and `q` never it is stuck at `q`. -/
structure FollowsAnswers (x : Primitive → Run α) : Prop where
  same  : ∀ p p', (∀ q ∈ (x p).issued, cipherAnswer p' q = cipherAnswer p q) → x p' = x p
  stops : ∀ p p' qs q more, (x p).issued = qs ++ q :: more →
    (∀ r ∈ qs, cipherAnswer p' r = cipherAnswer p r) → cipherAnswer p' q = .noAnswer →
    x p' = ⟨qs ++ [q], .silent⟩

/-- A run that makes no request does not depend on the primitive. -/
theorem followsAnswers_const {x : Run α} (hx : x.issued = []) : FollowsAnswers fun _ => x :=
  ⟨fun _ _ _ => rfl, fun _ _ _ _ _ h => by simp [hx] at h⟩

theorem followsAnswers_value (a : α) : FollowsAnswers fun _ => value a := followsAnswers_const rfl

theorem followsAnswers_encrypt (k b : Block) : FollowsAnswers fun p => encrypt p k b where
  same p p' h := by simp [encrypt, h ⟨k, b⟩ (by simp)]
  stops p p' qs q more h _ hq := by
    obtain ⟨rfl, rfl, rfl⟩ : qs = [] ∧ q = ⟨k, b⟩ ∧ more = [] := by
      cases qs <;> simp_all
    exact encrypt_noAnswer hq

theorem followsAnswers_andThen {x : Primitive → Run α} {f : α → Primitive → Run β} (hx : FollowsAnswers x)
    (hf : ∀ a, FollowsAnswers (f a)) : FollowsAnswers fun p => andThen (x p) fun a => f a p where
  same p p' h := by
    cases hp : (x p).ending with
    | done a =>
      rw [andThen_done hp] at h ⊢
      have hx' := hx.same p p' fun q hq => h q (List.mem_append_left _ hq)
      have hf' := (hf a).same p p' fun q hq => h q (List.mem_append_right _ hq)
      rw [hx', andThen_done hp, hf']
    | raised e =>
      rw [andThen_raised hp] at h ⊢
      rw [hx.same p p' h, andThen_raised hp]
    | silent =>
      rw [andThen_silent hp] at h ⊢
      rw [hx.same p p' h, andThen_silent hp]
  stops p p' qs q more h hqs hq := by
    have first {more : List Request} (hi : (x p).issued = qs ++ q :: more) :
        andThen (x p') (fun a => f a p') = ⟨qs ++ [q], .silent⟩ := by
      rw [hx.stops p p' qs q more hi hqs hq, andThen_silent rfl]
    cases hp : (x p).ending with
    | done a =>
      have second {qs' : List Request} (hi : qs = (x p).issued ++ qs') (hf' : (f a p).issued = qs' ++ q :: more) :
          andThen (x p') (fun a => f a p') = ⟨qs ++ [q], .silent⟩ := by
        subst hi
        rw [hx.same p p' fun r hr => hqs r (List.mem_append_left _ hr), andThen_done hp,
          (hf a).stops p p' qs' q more hf' (fun r hr => hqs r (List.mem_append_right _ hr)) hq, List.append_assoc]
      rw [andThen_done hp] at h
      obtain ⟨qs', hi, hf'⟩ | ⟨l, hi, hl⟩ := List.append_eq_append_iff.1 h
      · exact second hi hf'
      · obtain ⟨rfl, hf'⟩ | ⟨l, rfl, -⟩ := List.cons_eq_append_iff.1 hl
        · exact second (qs' := []) (by simpa using hi.symm) hf'
        · exact first hi
    | raised e => rw [andThen_raised hp] at h; exact first h
    | silent => rw [andThen_silent hp] at h; exact first h

theorem followsAnswers_check_andThen {x : Run α} {f : α → Primitive → Run β} (hx : ChecksOnly x)
    (hf : ∀ a, FollowsAnswers (f a)) : FollowsAnswers fun p => andThen x fun a => f a p :=
  followsAnswers_andThen (followsAnswers_const hx.issued) hf

theorem followsAnswers_computeOpc (op k : Block) : FollowsAnswers fun p => computeOpc p op k :=
  followsAnswers_andThen (followsAnswers_encrypt k op) fun _ => followsAnswers_value _

theorem followsAnswers_pipe (c : Context) (a b : Block) (r : Nat) (x : Byte) :
    FollowsAnswers fun p => pipe p c a b r x :=
  followsAnswers_andThen (followsAnswers_encrypt _ _) fun _ => followsAnswers_value _

theorem followsAnswers_selectedFunction (c : Context) (f : BitVec 3) :
    FollowsAnswers fun p => selectedFunction p c f := by
  unfold selectedFunction
  cases muxTable[f.toNat]? with
  | some row =>
    exact followsAnswers_andThen (followsAnswers_encrypt _ _) fun _ =>
      followsAnswers_andThen (followsAnswers_pipe _ _ _ _ _) fun _ => followsAnswers_value _
  | none =>
    exact followsAnswers_andThen (followsAnswers_encrypt _ _) fun _ =>
      followsAnswers_andThen (followsAnswers_pipe _ _ _ _ _) fun _ =>
      followsAnswers_andThen (followsAnswers_pipe _ _ _ _ _) fun _ =>
      followsAnswers_andThen (followsAnswers_pipe _ _ _ _ _) fun _ => followsAnswers_value _

theorem followsAnswers_functionCommand (s : State) (f : BitVec 3) :
    FollowsAnswers fun p => functionCommand { s with primitive := p } f :=
  followsAnswers_check_andThen (checksOnly_needContext s) fun c =>
    followsAnswers_andThen (followsAnswers_selectedFunction c f) fun fields =>
    followsAnswers_value (Effect.mk s.slot fields)

theorem followsAnswers_commandRun (i : Instr) (s : State) :
    FollowsAnswers fun p => commandRun i { s with primitive := p } := by
  cases i with
  | computeOpc op k =>
    exact followsAnswers_check_andThen (checksOnly_operand _) fun _ =>
      followsAnswers_check_andThen (checksOnly_operand _) fun _ =>
      followsAnswers_andThen (followsAnswers_computeOpc _ _) fun opc =>
      followsAnswers_value (Effect.mk s.slot [opc.bytes])
  | newCtxOp k op rand sqn amf =>
    exact followsAnswers_check_andThen (checksOnly_operand _) fun _ =>
      followsAnswers_check_andThen (checksOnly_operand _) fun _ =>
      followsAnswers_check_andThen (checksOnly_operand _) fun _ =>
      followsAnswers_check_andThen (checksOnly_operand _) fun _ =>
      followsAnswers_check_andThen (checksOnly_operand _) fun _ =>
      followsAnswers_andThen (followsAnswers_computeOpc _ _) fun _ => followsAnswers_value _
  | newCtxOpc k opc rand sqn amf =>
    exact followsAnswers_check_andThen (checksOnly_operand _) fun _ =>
      followsAnswers_check_andThen (checksOnly_operand _) fun _ =>
      followsAnswers_check_andThen (checksOnly_operand _) fun _ =>
      followsAnswers_check_andThen (checksOnly_operand _) fun _ =>
      followsAnswers_check_andThen (checksOnly_operand _) fun _ => followsAnswers_value _
  | setSqn sqn =>
    exact followsAnswers_check_andThen (checksOnly_operand _) fun _ =>
      followsAnswers_check_andThen (checksOnly_needContext s) fun _ => followsAnswers_value _
  | setAmf amf =>
    exact followsAnswers_check_andThen (checksOnly_operand _) fun _ =>
      followsAnswers_check_andThen (checksOnly_needContext s) fun _ => followsAnswers_value _
  | discard => exact followsAnswers_value _
  | f1 => exact followsAnswers_functionCommand s _
  | f1star => exact followsAnswers_functionCommand s _
  | f2 => exact followsAnswers_functionCommand s _
  | f3 => exact followsAnswers_functionCommand s _
  | f4 => exact followsAnswers_functionCommand s _
  | f5 => exact followsAnswers_functionCommand s _
  | f5star => exact followsAnswers_functionCommand s _
  | f2345 => exact followsAnswers_functionCommand s _

/-- A command that stops is stuck at its last request, which the primitive never answers. -/
theorem exec_fault {i : Instr} {s : State} {r : Fault} (h : exec i s = .fault r) :
    ∃ qs q, r = .primitiveSilent (qs ++ [q]) ∧ cipherAnswer s.primitive q = .noAnswer ∧
      ∀ x ∈ qs, ∃ b, cipherAnswer s.primitive x = .block b := by
  obtain ⟨e, -, hn⟩ | ⟨e, -, -, hn⟩ | ⟨hsilent, hn⟩ := exec_cases i s <;> rw [hn] at h <;> cases h
  cases commandRun_shape i s with
  | refused e _ h _ => simp [hsilent] at h
  | ran hr =>
    cases hr with
    | done a h _ => simp [hsilent] at h
    | failed _ _ h _ _ _ => simp [hsilent] at h
    | stuck qs q _ hissued hlast hanswered => exact ⟨qs, q, by rw [hissued], hlast, hanswered⟩

/-- A command that makes the request `q` stops there with a primitive that never answers `q` and answers the requests
before it alike. -/
theorem exec_stops {i : Instr} {s : State} {p : Primitive} {qs more : List Request} {q : Request}
    (h : issuedBy s (exec i s) = qs ++ q :: more) (hqs : ∀ x ∈ qs, cipherAnswer p x = cipherAnswer s.primitive x)
    (hq : cipherAnswer p q = .noAnswer) : exec i { s with primitive := p } = .fault (.primitiveSilent (qs ++ [q])) := by
  rw [issuedBy_exec] at h
  rw [exec_eq_finish, (followsAnswers_commandRun i s).stops s.primitive p qs q more h hqs hq]
  rfl

/-- An f-command on a context whose TEMP request is never answered is stuck at it. -/
theorem functionCommand_temp_silent {s : State} {c : Context} (f : BitVec 3) (hc : s.slot = .held c)
    (h : cipherAnswer s.primitive (tempRequest c) = .noAnswer) :
    functionCommand s f = ⟨[tempRequest c], .silent⟩ := by
  have temp : computeTemp s.primitive c.rand c.opc c.k = ⟨[tempRequest c], .silent⟩ := encrypt_noAnswer h
  rw [functionCommand, needContext_held hc, andThen_value]
  unfold selectedFunction
  cases muxTable[f.toNat]? with
  | some row => simp only [singleFunction, temp, andThen]
  | none => simp only [combinedFunction, temp, andThen]

/-- Settles O55: a refusal is no end of a run; the stop by the shape of a run; the converse by how a run follows the
answers; the first requests by evaluating up to them. -/
theorem onlyASilentPrimitiveStops : Obligations.OnlyASilentPrimitiveStops := by
  refine ⟨fun i s x => ?_, fun i s r => exec_fault, fun i s p qs q more => exec_stops, ?_, ?_⟩
  · rw [exec_eq_finish]
    exact finish_not_refused
  · intro op k rand sqn amf s h
    have stuck : computeOpc s.primitive op k = ⟨[⟨k, op⟩], .silent⟩ := by
      rw [computeOpc, encrypt_noAnswer h, andThen_silent rfl]
    constructor
    · simp only [exec_eq_finish, commandRun, operand_bytes, andThen_value, stuck]
      rfl
    · simp only [exec_eq_finish, commandRun, operand_bytes, andThen_value, stuck]
      rfl
  · intro i s c hi hc h
    rw [exec_eq_finish, commandRun_fCommand hi, functionCommand_temp_silent _ hc h]
    rfl

/-! ### The primitive of annex A (R102, R213) -/

theorem cipherAnswer_aes128 (q : Request) : cipherAnswer .aes128 q = .block (aesEncrypt q.key q.block) := rfl

/-- A command raises `ERR_CIPHER` only when the primitive refused one of its requests. -/
theorem commandRun_raised_errCipher {i : Instr} {s : State} (h : (commandRun i s).ending = .raised .errCipher) :
    ∃ q, cipherAnswer s.primitive q = .cipherError := by
  cases commandRun_shape i s with
  | refused e he h' _ =>
    obtain rfl : e = .errCipher := by simpa [h] using h'.symm
    simp at he
  | ran hr =>
    cases hr with
    | done a h' _ => simp [h] at h'
    | failed _ q _ _ hlast _ => exact ⟨q, hlast⟩
    | stuck _ _ h' _ _ _ => simp [h] at h'

theorem errorFrame_eq_errCipher {e : Status} (h : errorFrame e = [0x02#8]) : e = .errCipher := by
  cases e <;> simp [errorFrame, Status.byte] at h ⊢

/-- Settles O56: AES-128 answers every request, so that the command ends, and refuses none. -/
theorem aesNeverRaisesCipherError : Obligations.AesNeverRaisesCipherError := by
  intro i s hp
  have answers : PrimitiveAnswers s.primitive := fun q => by simp [hp, cipherAnswer_aes128]
  obtain ⟨t, ht⟩ := exec_next_of_primitiveAnswers answers i
  obtain ⟨-, -, -, ⟨e, -, -, hr⟩ | ⟨e, -, he, -, hr⟩⟩ := exec_next ht
  · exact ⟨t, okFrame e.fields, ht, hr, fun h => by simpa using congrArg List.head? h⟩
  · refine ⟨t, errorFrame e, ht, hr, fun h => ?_⟩
    obtain rfl := errorFrame_eq_errCipher h
    obtain ⟨q, hq⟩ := commandRun_raised_errCipher he
    simp [hp, cipherAnswer_aes128] at hq

end Sys2Proof.Proofs.CipherBinding

namespace Sys2Proof.Proofs.Aes

/-! R110 to R116: the S-box is the affine map of the inverse in GF(2^8), and each step of a round, so encryption under
a key, is injective. -/

open Sys2Proof.Machine Sys2Proof.Safety Sys2Proof.Laws

/-! ### The S-box (R111) -/

/-- The affine map of R111. -/
def affine (b : Byte) : Byte :=
  b ^^^ b.rotateLeft 1 ^^^ b.rotateLeft 2 ^^^ b.rotateLeft 3 ^^^ b.rotateLeft 4 ^^^ 0x63#8

/-- The affine map undone. -/
def affineInv (x : Byte) : Byte := x.rotateLeft 1 ^^^ x.rotateLeft 3 ^^^ x.rotateLeft 6 ^^^ 0x05#8

/-- The inverse in GF(2^8), `0` for `0`, read off the table by undoing the affine map (`gfInverse_spec`). -/
def gfInverse (a : Byte) : Byte := affineInv (sbox a)

theorem affine_affineInv : ∀ x : Byte, affine (affineInv x) = x := by decide +kernel

theorem gfInverse_spec : ∀ a : Byte, (a = 0 ∧ gfInverse a = 0) ∨ gfMul a (gfInverse a) = 1 := by decide +kernel

theorem gfInverse_gfInverse : ∀ a : Byte, gfInverse (gfInverse a) = a := by decide +kernel

theorem sbox_eq_affine_gfInverse (a : Byte) : sbox a = affine (gfInverse a) := (affine_affineInv _).symm

/-- Settles O59: the inverse is read off the table and multiplied out for every byte. -/
theorem sboxIsTheAffineInverse : Obligations.SboxIsTheAffineInverse :=
  ⟨fun a => ⟨gfInverse a, gfInverse_spec a, sbox_eq_affine_gfInverse a⟩, fun _ _ h => byte_tabulate h⟩

/-- The table undone is the affine map undone and then the inverse again. -/
theorem sbox_injective : Function.Injective sbox := by
  intro a b h
  calc a = gfInverse (gfInverse a) := (gfInverse_gfInverse a).symm
    _ = gfInverse (gfInverse b) := by simp only [gfInverse, h]
    _ = b := gfInverse_gfInverse b

/-- Settles O58: the kernel evaluates the annex on the example. -/
theorem aesExampleBlock : Obligations.AesExampleBlock := by
  unfold Obligations.AesExampleBlock
  decide +kernel

/-! ### Multiplication by `02` and MixColumns (R110, R113) -/

theorem xor_left_comm (a b c : Byte) : a ^^^ (b ^^^ c) = b ^^^ (a ^^^ c) := by
  rw [← BitVec.xor_assoc, BitVec.xor_comm a b, BitVec.xor_assoc]

theorem xtime_eq (a : Byte) : xtime a = (a <<< 1) ^^^ (if a.msb then 0x1b#8 else 0#8) := by
  unfold xtime
  rw [BitVec.msb_eq_decide]
  by_cases h : a.toNat < 128
  · simp [h, show ¬ 128 ≤ a.toNat by omega]
  · simp [h, show 128 ≤ a.toNat by omega]

/-- `xtime` is linear. -/
theorem xtime_xor (a b : Byte) : xtime (a ^^^ b) = xtime a ^^^ xtime b := by
  rw [xtime_eq, xtime_eq, xtime_eq, BitVec.msb_xor, BitVec.shiftLeft_xor_distrib]
  cases a.msb <;> cases b.msb <;> simp [BitVec.xor_assoc, BitVec.xor_comm, xor_left_comm]

/-- Column `c` of a state (R110). -/
def column (s : Block) (c : Nat) (k : Fin 4) : Byte := s.byte (4 * c + k)

/-- The xor of a column's bytes. -/
def columnSum (a : Fin 4 → Byte) : Byte := a 0 ^^^ a 1 ^^^ a 2 ^^^ a 3

/-- A column mixed, in the form that is the same for every row (`mixByte_eq_mixColumn`). -/
def mixColumn (a : Fin 4 → Byte) (k : Fin 4) : Byte := a k ^^^ columnSum a ^^^ xtime (a k ^^^ a (k + 1))

/-- The bytes of a state are its columns one after another. -/
theorem block_ext_columns {s t : Block} (h : ∀ c < 4, column s c = column t c) : s = t := by
  refine byteString_ext fun i hi => ?_
  have hcol := congrFun (h (i / 4) (by omega)) ⟨i % 4, by omega⟩
  simpa only [column, Nat.div_add_mod] using hcol

/-- The rows of the matrix of R113 are one formula. -/
theorem mixByte_eq_mixColumn (a : Fin 4 → Byte) (k : Fin 4) : mixByte (a 0) (a 1) (a 2) (a 3) k = mixColumn a k := by
  match k with
  | 0 | 1 | 2 | 3 =>
    simp [mixByte, mixColumn, columnSum, mul2, mul3, xtime_xor, BitVec.xor_assoc, BitVec.xor_comm, xor_left_comm]

theorem column_mixColumns (s : Block) {c : Nat} (hc : c < 4) :
    column (mixColumns s) c = mixColumn (column s c) := by
  funext k
  have hk := k.isLt
  rw [← mixByte_eq_mixColumn, column, mixColumns, byte_tabulate (by omega)]
  have hdiv : (4 * c + k.val) / 4 = c := by omega
  have hmod : (4 * c + k.val) % 4 = k.val := by omega
  simp [hdiv, hmod, column]

/-- Mixing keeps the sum of a column: the multiples cancel around it. -/
theorem columnSum_mixColumn (a : Fin 4 → Byte) : columnSum (mixColumn a) = columnSum a :=
  calc columnSum (mixColumn a) = mixColumn a 0 ^^^ mixColumn a 1 ^^^ mixColumn a 2 ^^^ mixColumn a 3 := rfl
    _ = a 0 ^^^ a 1 ^^^ a 2 ^^^ a 3 := by
      simp [mixColumn, xtime_xor, BitVec.xor_assoc, BitVec.xor_comm, xor_left_comm]

/-- The difference of neighbours in a mixed column. -/
theorem mixColumn_xor_next (a : Fin 4 → Byte) (k : Fin 4) :
    mixColumn a k ^^^ mixColumn a (k + 1) = a k ^^^ a (k + 1) ^^^ xtime (a k ^^^ a (k + 2)) := by
  have hk : k + 1 + 1 = k + 2 := by rw [add_assoc]; rfl
  simp [mixColumn, hk, xtime_xor, BitVec.xor_assoc, BitVec.xor_comm, xor_left_comm]

/-- Mixing twice: the square of the matrix has two entries to a row. -/
theorem mixColumn_mixColumn (a : Fin 4 → Byte) (k : Fin 4) :
    mixColumn (mixColumn a) k = a k ^^^ xtime (xtime (a k ^^^ a (k + 2))) := by
  rw [mixColumn, columnSum_mixColumn, mixColumn_xor_next, xtime_xor, mixColumn]
  simp [BitVec.xor_assoc, BitVec.xor_comm, xor_left_comm]

/-- Mixing four times gives the column back: mixing twice keeps the difference two rows apart. -/
theorem mixColumn_four_times (a : Fin 4 → Byte) : mixColumn (mixColumn (mixColumn (mixColumn a))) = a := by
  funext k
  have hk : k + 2 + 2 = k := by rw [add_assoc]; exact add_zero k
  simp [mixColumn_mixColumn, hk, xtime_xor, BitVec.xor_assoc, BitVec.xor_comm]

theorem mixColumns_injective : Function.Injective mixColumns := by
  intro s t h
  refine block_ext_columns fun c hc => ?_
  have hcol : mixColumn (column s c) = mixColumn (column t c) := by
    rw [← column_mixColumns s hc, ← column_mixColumns t hc, h]
  rw [← mixColumn_four_times (column s c), hcol, mixColumn_four_times]

/-! ### The other steps of a round, and encryption (R112, R114, R116) -/

/-- Every byte of a state is moved somewhere by `ShiftRows`. -/
theorem exists_shiftRows_source : ∀ j < 16, ∃ i < 16, i % 4 + 4 * ((i / 4 + i % 4) % 4) = j := by decide

theorem shiftRows_injective : Function.Injective shiftRows := by
  intro s t h
  refine byteString_ext fun j hj => ?_
  obtain ⟨i, hi, rfl⟩ := exists_shiftRows_source j hj
  have hbyte := congrArg (ByteString.byte · i) h
  simpa only [shiftRows, byte_tabulate hi] using hbyte

theorem subBytes_injective {n : Nat} : Function.Injective (subBytes (n := n)) := by
  intro s t h
  refine byteString_ext fun i hi => sbox_injective ?_
  have hbyte := congrArg (ByteString.byte · i) h
  simpa only [subBytes, byte_tabulate hi] using hbyte

/-- Adding a round key twice is adding nothing. -/
theorem addRoundKey_injective (rk : Block) : Function.Injective (addRoundKey · rk) :=
  Function.LeftInverse.injective (g := (bxor · rk)) fun s => bxor_self_right s rk

theorem aesRound_injective (rk : Block) : Function.Injective (aesRound · rk) :=
  (addRoundKey_injective rk).comp <| mixColumns_injective.comp <| shiftRows_injective.comp subBytes_injective

theorem aesLastRound_injective (rk : Block) : Function.Injective (aesLastRound · rk) :=
  (addRoundKey_injective rk).comp <| shiftRows_injective.comp subBytes_injective

theorem aesRounds_injective (ws : List KeyWord) (n t : Nat) : Function.Injective (aesRounds ws n t) := by
  induction n generalizing t with
  | zero => exact Function.injective_id
  | succ n ih => exact (ih (t + 1)).comp (aesRound_injective (roundKey ws t))

theorem aesEncrypt_injective (key : Block) : Function.Injective (aesEncrypt key) :=
  (aesLastRound_injective _).comp <| (aesRounds_injective _ 9 1).comp (addRoundKey_injective _)

/-- There are finitely many byte strings of a length. -/
theorem finite_byteString (n : Nat) : Finite (ByteString n) :=
  Finite.of_injective (β := Fin n → Byte) (fun x i => x.byte i) fun _ _ h =>
    byteString_ext fun i hi => congrFun h ⟨i, hi⟩

/-- Settles O57: each step of a round is injective, and an injective map of a finite set into itself is onto. -/
theorem aesIsAPermutationForEachKey : Obligations.AesIsAPermutationForEachKey := by
  intro key
  have := finite_byteString 16
  exact Finite.injective_iff_bijective.1 (aesEncrypt_injective key)

end Sys2Proof.Proofs.Aes

/-! ## Proofs about the OPc derivation (41_opc_derivation.md): what it appends and writes, then the obligations -/

namespace Sys2Proof.Proofs.OpcDerivation

/-! R120 to R122: the decoding side of any command with operands; the run of `ComputeOPc` by what the primitive
answers; the whole next state of the three commands that compute or take an OPc. -/

open Sys2Proof.Machine Sys2Proof.Safety Sys2Proof.Laws Sys2Proof.Proofs.Decoder Sys2Proof.Proofs.CheckOrder
  Sys2Proof.Proofs.NoHiddenState

variable {p : Primitive} {op k e : Block}

/-- Every opcode has the decoding side of its row in the operand table: what the walk of the fields gives is the
operands of a command, and the decoder is known on that command's frame. -/
theorem formatV (o : Opcode) : FormatV o.byte o.operandLens := by
  intro rest
  have accepted {fs : List (List Byte)} (walk : splitFields o.operandLens.length rest = some fs) :
      ∃ i : Instr, i.operands = fs ∧
        decode (o.byte :: rest) = if fs.map List.length = o.operandLens then .ok i else .error .errLength := by
    obtain ⟨hcount, hle, rfl⟩ := splitFields_eq_some walk
    obtain ⟨i, rfl, rfl⟩ := exists_instr_of_parts hcount
    have hdec := decode_encode hle
    simp only [wellFormed_iff] at hdec
    exact ⟨i, rfl, hdec⟩
  refine ⟨fun walk => ?_, fun fs walk hlens => ?_, fun fs walk hlens => ?_⟩
  · simp only [decode, ofByte?_byte, walk]
  · obtain ⟨i, -, hdec⟩ := accepted walk
    rw [hdec, if_neg hlens]
  · obtain ⟨i, hops, hdec⟩ := accepted walk
    exact ⟨i, by rw [hdec, if_pos hlens], hops⟩

/-- The field of a byte string, its length a `LEN` byte. -/
theorem field_bytes {n : Nat} (x : ByteString n) : field x.bytes = BitVec.ofNat 8 n :: x.bytes := by
  rw [field, length_bytes]

theorem okFrame_block (b : Block) : okFrame [b.bytes] = 0x00#8 :: 0x10#8 :: b.bytes := by
  rw [okFrame, List.flatMap_singleton, field_bytes]
  rfl

theorem computeOpc_block (h : cipherAnswer p ⟨k, op⟩ = .block e) :
    computeOpc p op k = ⟨[⟨k, op⟩], .done (bxor e op)⟩ := by
  rw [computeOpc, encrypt_block h, andThen_done rfl]
  rfl

theorem computeOpc_cipherError (h : cipherAnswer p ⟨k, op⟩ = .cipherError) :
    computeOpc p op k = ⟨[⟨k, op⟩], .raised .errCipher⟩ := by
  rw [computeOpc, encrypt_cipherError h, andThen_raised rfl]

/-- `COMPUTE_OPC` of a request that is answered responds with the OPc and writes nothing. -/
theorem exec_computeOpc_block {s : State} (h : cipherAnswer s.primitive ⟨k, op⟩ = .block e) :
    exec (.computeOpc op.bytes k.bytes) s = .next (emit s (okFrame [(bxor e op).bytes]) [⟨k, op⟩]) := by
  rw [exec_eq_finish, commandRun]
  simp only [operand_bytes, andThen_value, computeOpc_block h]
  rfl

theorem exec_computeOpc_cipherError {s : State} (h : cipherAnswer s.primitive ⟨k, op⟩ = .cipherError) :
    exec (.computeOpc op.bytes k.bytes) s = .next (emit s [0x02#8] [⟨k, op⟩]) := by
  rw [exec_eq_finish, commandRun]
  simp only [operand_bytes, andThen_value, computeOpc_cipherError h]
  rfl

/-- `NEW_CTX_OP` of a request that is answered loads the same OPc into the context. -/
theorem exec_newCtxOp_block {s : State} (rand : Block) (sqn : ByteString 6) (amf : ByteString 2)
    (h : cipherAnswer s.primitive ⟨k, op⟩ = .block e) :
    exec (.newCtxOp k.bytes op.bytes rand.bytes sqn.bytes amf.bytes) s =
      .next { emit s [0x00#8] [⟨k, op⟩] with slot := .held ⟨k, bxor e op, rand, sqn, amf⟩ } := by
  rw [exec_eq_finish, commandRun]
  simp only [operand_bytes, andThen_value, computeOpc_block h]
  rfl

/-- `NEW_CTX_OPC` loads the OPc it is given, in every state and without a request. -/
theorem exec_newCtxOpc (k opc rand : Block) (sqn : ByteString 6) (amf : ByteString 2) (s : State) :
    exec (.newCtxOpc k.bytes opc.bytes rand.bytes sqn.bytes amf.bytes) s =
      .next { emit s [0x00#8] [] with slot := .held ⟨k, opc, rand, sqn, amf⟩ } := by
  rw [exec_eq_finish, commandRun]
  simp only [operand_bytes, andThen_value]
  rfl

/-- Settles O27: the decoding side is the opcode's row of the table; the run makes the one request of `ComputeOPc`,
and its answer decides. -/
theorem computeOpcRespondsWithOpc : Obligations.ComputeOpcRespondsWithOpc := by
  refine ⟨formatV .computeOpc, fun op k => ?_, fun op k s => ⟨exec_computeOpc_cipherError, fun e h => ?_⟩⟩
  · simp [encode, Instr.opcode, Instr.operands, Opcode.byte, field_bytes]
  · rw [exec_computeOpc_block h, okFrame_block]

/-- Settles O50: both ways load the OPc `bxor e op`, so that they leave equal cores, and equal cores run alike for
ever (R32). -/
theorem opcSuppliedOrDerivedIsTheSame : Obligations.OpcSuppliedOrDerivedIsTheSame := by
  intro k op rand sqn amf s e h
  refine ⟨_, _, _, bxor e op, exec_newCtxOp_block rand sqn amf h, exec_computeOpc_block h, rfl,
    exec_newCtxOpc k (bxor e op) rand sqn amf _, rfl, ?sameCore, fun n => run_sameRun n ?sameCore⟩
  case sameCore => exact ⟨rfl, rfl, rfl⟩

end Sys2Proof.Proofs.OpcDerivation

/-! ## Proofs about TEMP and the transform (42_temp_and_transform.md): bytes, pipeline, functions, then obligations -/

namespace Sys2Proof.Proofs.Rotation

/-! R133 to R135: rotation by bytes and the constant of the last byte, read byte by byte. -/

open Sys2Proof.Machine Sys2Proof.Laws

variable (x y : Block) (r a b : Nat)

theorem rotl_bxor : rotl (bxor x y) r = bxor (rotl x r) (rotl y r) :=
  byteString_ext fun i hi => by simp [hi, Nat.mod_lt]

/-- The amounts of two rotations add up in the index of the byte that is read. -/
theorem rotl_rotl : rotl (rotl x a) b = rotl x ((a + b) % 16) := by
  refine byteString_ext fun i hi => ?_
  have hindex : ((i + b) % 16 + a) % 16 = (i + (a + b) % 16) % 16 := by omega
  rw [byte_rotl hi, byte_rotl (Nat.mod_lt _ (by decide)), byte_rotl hi, hindex]

/-- Two rotations once around undo each other. -/
theorem rotl_rotl_cancel {a b : Nat} (h : (a + b) % 16 = 0) : rotl (rotl x a) b = x := by
  rw [rotl_rotl, h, rotl_zero]

theorem slice_low_rotl_eight : slice 0 8 (rotl x 8) = slice 8 16 x := by
  refine byteString_ext fun i (hi : i < 8) => ?_
  have hindex : (0 + i + 8) % 16 = 8 + i := by omega
  rw [byte_slice hi, byte_rotl (by omega), byte_slice hi, hindex]

theorem slice_high_rotl_eight : slice 8 16 (rotl x 8) = slice 0 8 x := by
  refine byteString_ext fun i (hi : i < 8) => ?_
  have hindex : (8 + i + 8) % 16 = 0 + i := by omega
  rw [byte_slice hi, byte_rotl (by omega), byte_slice hi, hindex]

/-- Settles O23: the inverses are instances of the sum of two rotations. -/
theorem rotationLaws : Obligations.RotationLaws :=
  ⟨rotl_bxor, rotl_rotl,
    fun x => ⟨rotl_rotl_cancel x rfl, slice_low_rotl_eight x, slice_high_rotl_eight x⟩,
    fun x => ⟨rotl_rotl_cancel x rfl, rotl_rotl_cancel x rfl⟩⟩

/-- Settles O22: the second wording reads the first at the position byte `i` moves to. -/
theorem rotationIsLeftByBytes : Obligations.RotationIsLeftByBytes := by
  refine fun x r hr => ⟨fun j hj => byte_rotl hj, fun i hi => ?_⟩
  have hindex : ((i + 16 - r) % 16 + r) % 16 = i := by omega
  rw [byte_rotl (Nat.mod_lt _ (by decide)), hindex]

theorem byte_cbyte_of_lt (c : Byte) {i : Nat} (hi : i < 15) : (cbyte c).byte i = 0x00#8 := by
  rw [byte_cbyte (by omega), if_neg (by omega)]
  rfl

theorem byte_cbyte_last (c : Byte) : (cbyte c).byte 15 = c := by
  rw [byte_cbyte (by decide), if_pos rfl]

/-- Settles O24: xor reads the constant byte by byte, and the constant `0` is the zero block. -/
theorem constantEntersTheLastByte : Obligations.ConstantEntersTheLastByte := by
  refine fun y c => ⟨fun i hi => byte_cbyte_of_lt c hi, byte_cbyte_last c, fun i hi => ?_, ?_, ?_⟩
  · rw [byte_bxor (by omega), byte_cbyte_of_lt c hi, BitVec.xor_zero]
  · rw [byte_bxor (by decide), byte_cbyte_last]
  · rw [cbyte_zero, bxor_zeroBlock]

end Sys2Proof.Proofs.Rotation

namespace Sys2Proof.Proofs.Functions

/-! R131, R132, R136, R141: a pipeline run by the answer to its one request; an f-command on a context is the function
its opcode selects, which begins with the TEMP request and reads SQN and AMF in the rows of F1 and F1STAR alone. -/

open Sys2Proof.Machine Sys2Proof.Safety Sys2Proof.Laws Sys2Proof.Proofs.Answers

variable {α β : Type} {p : Primitive} {s : State} {c : Context}

/-! ### The pipeline (R136, R137) -/

theorem pipe_block {a b e : Block} {r : Nat} {k : Byte}
    (h : cipherAnswer p ⟨c.k, pipeInput c.opc a b r k⟩ = .block e) :
    pipe p c a b r k = ⟨[⟨c.k, pipeInput c.opc a b r k⟩], .done (bxor e c.opc)⟩ := by
  rw [pipe, encrypt_block h, andThen_done rfl]
  rfl

theorem pipeInput_zeroBlock (opc a : Block) (r : Nat) (k : Byte) :
    pipeInput opc a zeroBlock r k = bxor (rotl (bxor a opc) r) (cbyte k) := by
  rw [pipeInput, bxor_zeroBlock]

/-- Settles O26: the zero input drops out of the block that is encrypted. -/
theorem pipelineIsTheTemplate : Obligations.PipelineIsTheTemplate := by
  intro p c temp e r k h
  rw [← pipeInput_zeroBlock] at h ⊢
  exact pipe_block h

/-! ### The TEMP request comes first (R131) -/

theorem functionCommand_held (hc : s.slot = .held c) (f : BitVec 3) :
    functionCommand s f = andThen (selectedFunction s.primitive c f) fun fields => value ⟨s.slot, fields⟩ := by
  rw [functionCommand, needContext_held hc, andThen_value]

/-- The requests of the first part of a run come first, however it ends. -/
theorem issued_isPrefix_andThen (x : Run α) (f : α → Run β) : x.issued <+: (andThen x f).issued := by
  cases h : x.ending with
  | done a => rw [andThen_done h]; exact ⟨_, rfl⟩
  | raised e => rw [andThen_raised h]
  | silent => rw [andThen_silent h]

/-- Every function, of a row or combined, computes TEMP first. -/
theorem temp_isPrefix_selectedFunction (p : Primitive) (c : Context) (f : BitVec 3) :
    [tempRequest c] <+: (selectedFunction p c f).issued := by
  unfold selectedFunction
  cases muxTable[f.toNat]? with
  | some row => exact issued_isPrefix_andThen (computeTemp p c.rand c.opc c.k) _
  | none => exact issued_isPrefix_andThen (computeTemp p c.rand c.opc c.k) _

/-- Settles O47: the requests of the selected function are the first of the command's, and TEMP is the first of
these. -/
theorem functionCommandsBeginWithTemp : Obligations.FunctionCommandsBeginWithTemp := by
  intro i s c hi hc
  rw [issuedBy_exec, commandRun_fCommand hi, functionCommand_held hc]
  obtain ⟨qs, hqs⟩ := (temp_isPrefix_selectedFunction _ _ _).trans (issued_isPrefix_andThen _ _)
  exact ⟨qs, hqs.symm⟩

/-! ### What the functions read of the context (R141) -/

theorem andThen_value_right (x : Run α) : andThen x value = x := by
  obtain ⟨issued, ending⟩ := x
  cases ending <;> simp [andThen]

/-- Of an f-command on a context the run of its function is visible. -/
theorem visibleRun_functionCommand (hc : s.slot = .held c) (f : BitVec 3) :
    visibleRun (functionCommand s f) = selectedFunction s.primitive c f := by
  simp only [functionCommand_held hc, visibleRun, andThen_assoc, andThen_value]
  exact andThen_value_right _

/-- A multiplexer input other than `IN1` is the same for every SQN and AMF. -/
theorem pipeSource_congr {source : PipeSource} (h : source ≠ .in1) (c : Context) (temp : Block)
    (sqn : ByteString 6) (amf : ByteString 2) :
    pipeSource { c with sqn := sqn, amf := amf } temp source = pipeSource c temp source := by
  cases source with
  | in1 => exact absurd rfl h
  | temp => rfl
  | zero => rfl

/-- A row that does not select `IN1` is the same function for every SQN and AMF. -/
theorem singleFunction_congr {row : MuxRow} (ha : row.a ≠ .in1) (hb : row.b ≠ .in1) (p : Primitive) (c : Context)
    (sqn : ByteString 6) (amf : ByteString 2) :
    singleFunction p { c with sqn := sqn, amf := amf } row = singleFunction p c row := by
  simp only [singleFunction, muxPipe, pipe, pipeSource_congr ha, pipeSource_congr hb]

/-- Only the rows of `F1` and `F1STAR` select `IN1`; the combined function has no row. -/
theorem row_ne_in1 : ∀ i ∈ fCommands, i ≠ .f1 → i ≠ .f1star →
    ∀ row ∈ muxTable[i.opcode.fsel.toNat]?, row.a ≠ .in1 ∧ row.b ≠ .in1 := by decide

theorem selectedFunction_congr {f : BitVec 3} (h : ∀ row ∈ muxTable[f.toNat]?, row.a ≠ .in1 ∧ row.b ≠ .in1)
    (p : Primitive) (c : Context) (sqn : ByteString 6) (amf : ByteString 2) :
    selectedFunction p { c with sqn := sqn, amf := amf } f = selectedFunction p c f := by
  unfold selectedFunction
  cases hrow : muxTable[f.toNat]? with
  | some row =>
    obtain ⟨ha, hb⟩ := h row hrow
    exact singleFunction_congr ha hb p c sqn amf
  | none => rfl

/-- Settles O48: with the same slot and primitive the run is the same; with contexts that differ in SQN and AMF the
same is visible of it. -/
theorem onlyF1DependsOnSqnAndAmf : Obligations.OnlyF1DependsOnSqnAndAmf := by
  constructor
  · intro i s t _ hslot hprim
    rw [exec_eq_finish, exec_eq_finish, commandRun_congr hslot hprim]
    exact finish_sameAnswer rfl s t
  · intro i s t c sqn amf hi hf1 hf1star hs ht hprim
    rw [exec_eq_finish, exec_eq_finish, commandRun_fCommand hi, commandRun_fCommand hi]
    refine finish_sameAnswer ?_ s t
    rw [visibleRun_functionCommand hs, visibleRun_functionCommand ht, ← hprim]
    exact (selectedFunction_congr (row_ne_in1 i hi hf1 hf1star) s.primitive c sqn amf).symm

end Sys2Proof.Proofs.Functions

/-! ## Proofs about F1 and F1STAR (43_f1_f1star.md): single functions by the answers, then the obligations -/

namespace Sys2Proof.Proofs.SingleFunctions

/-! R70, R76, R140: the decoding side of a command without operands; the whole next state of an f-command by the run
of its function; a row of the multiplexer by the answers to its two requests. -/

open Sys2Proof.Machine Sys2Proof.Safety Sys2Proof.Laws Sys2Proof.Proofs.Decoder Sys2Proof.Proofs.OpcDerivation
  Sys2Proof.Proofs.Functions

variable {p : Primitive} {s : State} {c : Context} {i : Instr} {row : MuxRow} {temp e : Block} {qs : List Request}

/-- A command without operands is its opcode byte; a byte after it is left over in the walk of no fields. -/
theorem formatN (h : i.operands = []) : FormatN i.opcode.byte i := by
  have hlens : i.opcode.operandLens = [] := List.eq_nil_of_length_eq_zero (by rw [← operands_length, h]; rfl)
  have hwf : i.wellFormed = true := (wellFormed_iff i).2 (by rw [h, hlens]; rfl)
  have henc : encode i = [i.opcode.byte] := by rw [encode, h]; rfl
  refine ⟨henc, ?_, fun x rest => ?_⟩
  · rw [← henc]
    exact decodeOfEncodeIsTheCommand i hwf
  · obtain ⟨leftover, -⟩ := formatV i.opcode (x :: rest)
    exact leftover (by rw [hlens]; rfl)

/-- An `OK` response of one byte string. -/
theorem okFrame_bytes {n : Nat} (x : ByteString n) : okFrame [x.bytes] = 0x00#8 :: BitVec.ofNat 8 n :: x.bytes := by
  rw [okFrame, List.flatMap_singleton, field_bytes]
  rfl

/-! ### An f-command by the run of its function (R140) -/

theorem exec_fCommand_noContext (hi : i ∈ fCommands) (hs : s.slot = .noContext) :
    exec i s = .next (emit s [0x05#8] []) := by
  rw [exec_eq_finish, commandRun_fCommand hi, functionCommand, needContext_noContext hs]
  rfl

theorem exec_fCommand_done {fields : List (List Byte)} (hi : i ∈ fCommands) (hc : s.slot = .held c)
    (h : selectedFunction s.primitive c i.opcode.fsel = ⟨qs, .done fields⟩) :
    exec i s = .next (emit s (okFrame fields) qs) := by
  rw [exec_eq_finish, commandRun_fCommand hi, functionCommand_held hc, h, andThen_done rfl, value_issued,
    List.append_nil]
  rfl

theorem exec_fCommand_cipherError (hi : i ∈ fCommands) (hc : s.slot = .held c)
    (h : selectedFunction s.primitive c i.opcode.fsel = ⟨qs, .raised .errCipher⟩) :
    exec i s = .next (emit s [0x02#8] qs) := by
  rw [exec_eq_finish, commandRun_fCommand hi, functionCommand_held hc, h, andThen_raised rfl]
  rfl

/-! ### A row by the answers to its requests (R138, R140) -/

/-- The block a row of the multiplexer has encrypted after TEMP. -/
def rowInput (row : MuxRow) (c : Context) (temp : Block) : Block :=
  pipeInput c.opc (pipeSource c temp row.a) (pipeSource c temp row.b) row.r row.c

theorem pipe_cipherError {a b : Block} {r : Nat} {k : Byte}
    (h : cipherAnswer p ⟨c.k, pipeInput c.opc a b r k⟩ = .cipherError) :
    pipe p c a b r k = ⟨[⟨c.k, pipeInput c.opc a b r k⟩], .raised .errCipher⟩ := by
  rw [pipe, encrypt_cipherError h, andThen_raised rfl]

theorem computeTemp_block (h : cipherAnswer p (tempRequest c) = .block temp) :
    computeTemp p c.rand c.opc c.k = ⟨[tempRequest c], .done temp⟩ :=
  encrypt_block h

theorem computeTemp_cipherError (h : cipherAnswer p (tempRequest c) = .cipherError) :
    computeTemp p c.rand c.opc c.k = ⟨[tempRequest c], .raised .errCipher⟩ :=
  encrypt_cipherError h

theorem singleFunction_temp_cipherError (h : cipherAnswer p (tempRequest c) = .cipherError) :
    singleFunction p c row = ⟨[tempRequest c], .raised .errCipher⟩ := by
  rw [singleFunction, computeTemp_cipherError h, andThen_raised rfl]

theorem singleFunction_pipe_cipherError (htemp : cipherAnswer p (tempRequest c) = .block temp)
    (h : cipherAnswer p ⟨c.k, rowInput row c temp⟩ = .cipherError) :
    singleFunction p c row = ⟨[tempRequest c, ⟨c.k, rowInput row c temp⟩], .raised .errCipher⟩ := by
  rw [singleFunction, computeTemp_block htemp, andThen_done rfl, muxPipe, pipe_cipherError h, andThen_raised rfl]
  rfl

theorem singleFunction_block (htemp : cipherAnswer p (tempRequest c) = .block temp)
    (h : cipherAnswer p ⟨c.k, rowInput row c temp⟩ = .block e) :
    singleFunction p c row =
      ⟨[tempRequest c, ⟨c.k, rowInput row c temp⟩], .done [(slice row.lo row.hi (bxor e c.opc)).bytes]⟩ := by
  rw [singleFunction, computeTemp_block htemp, andThen_done rfl, muxPipe, pipe_block h, andThen_done rfl]
  rfl

/-- An f-command whose opcode selects a row of the multiplexer follows the rule of the single functions, with the
block and the slice of that row. -/
theorem singleFunctionRule (hi : i ∈ fCommands)
    (hrow : ∀ p c, selectedFunction p c i.opcode.fsel = singleFunction p c row) :
    SingleFunctionRule i (rowInput row) fun c e =>
      0x00#8 :: BitVec.ofNat 8 (row.hi - row.lo) :: (slice row.lo row.hi (bxor e c.opc)).bytes := by
  refine fun s => ⟨exec_fCommand_noContext hi, fun c hc =>
    ⟨fun h => ?_, fun temp htemp => ⟨fun h => ?_, fun e h => ?_⟩⟩⟩
  · exact exec_fCommand_cipherError hi hc ((hrow _ c).trans (singleFunction_temp_cipherError h))
  · exact exec_fCommand_cipherError hi hc ((hrow _ c).trans (singleFunction_pipe_cipherError htemp h))
  · have answered := exec_fCommand_done hi hc ((hrow _ c).trans (singleFunction_block htemp h))
    rwa [okFrame_bytes] at answered

end Sys2Proof.Proofs.SingleFunctions

namespace Sys2Proof.Proofs.NetworkAuthentication

/-! R150 to R152: what `IN1` is made of, and the two halves of OUT1 that `F1` and `F1STAR` respond with. -/

open Sys2Proof.Machine Sys2Proof.Safety Sys2Proof.Laws Sys2Proof.Proofs.SingleFunctions

/-- The slice that begins after `pre` is what stands there. -/
theorem slice_eq_of_bytes_eq_append {n lo hi : Nat} {x : ByteString n} {y : ByteString (hi - lo)}
    (pre post : List Byte) (hx : x.bytes = pre ++ (y.bytes ++ post)) (hpre : pre.length = lo) :
    slice lo hi x = y := by
  subst hpre
  refine byteString_ext fun i hlt => ?_
  rw [byte_slice hlt, ByteString.byte, ByteString.byte, hx, List.getD_append_right _ _ _ _ (by omega),
    Nat.add_sub_cancel_left, List.getD_append _ _ _ _ (by rwa [y.len])]

/-- Settles O25: each of the four parts of `IN1` stands after the parts before it. -/
theorem in1RepeatsSqnAndAmf : Obligations.In1RepeatsSqnAndAmf := by
  intro sqn amf
  have hbytes : (in1 sqn amf).bytes = sqn.bytes ++ amf.bytes ++ sqn.bytes ++ amf.bytes := rfl
  refine ⟨?_, ?_, ?_, ?_⟩
  · exact slice_eq_of_bytes_eq_append [] (amf.bytes ++ sqn.bytes ++ amf.bytes) (by simp [hbytes]) rfl
  · exact slice_eq_of_bytes_eq_append sqn.bytes (sqn.bytes ++ amf.bytes) (by simp [hbytes]) (by simp)
  · exact slice_eq_of_bytes_eq_append (sqn.bytes ++ amf.bytes) amf.bytes (by simp [hbytes]) (by simp)
  · exact slice_eq_of_bytes_eq_append (sqn.bytes ++ amf.bytes ++ sqn.bytes) [] (by simp [hbytes]) (by simp)

/-- The constant of f1 and f1* is zero, so it drops out of the block. -/
theorem pipeInput_const_zero (opc a b : Block) (r : Nat) :
    pipeInput opc a b r 0x00#8 = bxor (rotl (bxor a opc) r) b := by
  rw [pipeInput, cbyte_zero, bxor_zeroBlock]

/-- The rule of the rows that select `IN1` and TEMP: they differ in the slice alone. -/
theorem in1FunctionRule {i : Instr} {lo hi : Nat} (hmem : i ∈ fCommands)
    (hrow : ∀ p c, selectedFunction p c i.opcode.fsel = singleFunction p c ⟨.in1, .temp, 8, 0x00#8, lo, hi⟩) :
    SingleFunctionRule i (fun c temp => bxor (rotl (bxor (in1 c.sqn c.amf) c.opc) 8) temp)
      (fun c e => 0x00#8 :: BitVec.ofNat 8 (hi - lo) :: (slice lo hi (bxor e c.opc)).bytes) := by
  have hinput : rowInput ⟨.in1, .temp, 8, 0x00#8, lo, hi⟩ =
      fun c temp => bxor (rotl (bxor (in1 c.sqn c.amf) c.opc) 8) temp :=
    funext₂ fun c temp => pipeInput_const_zero c.opc (in1 c.sqn c.amf) temp 8
  have rule := singleFunctionRule hmem hrow
  rwa [hinput] at rule

/-- Settles O33: the row of `F1`, which takes the first half of OUT1. -/
theorem f1RespondsWithMacA : Obligations.F1RespondsWithMacA :=
  ⟨formatN rfl, in1FunctionRule (i := .f1) (by decide) selectedFunction_f1⟩

/-- Settles O34: the row of `F1STAR`, which takes the second half of OUT1. -/
theorem f1starRespondsWithMacS : Obligations.F1starRespondsWithMacS :=
  ⟨formatN rfl, in1FunctionRule (i := .f1star) (by decide) selectedFunction_f1star⟩

end Sys2Proof.Proofs.NetworkAuthentication

/-! ## Proofs about F2 to F5 and F2345 (44_f2345.md): outputs of TEMP, the combined function, then the obligations -/

namespace Sys2Proof.Proofs.TempFunctions

/-! R163 to R166: the rows whose pipeline input is TEMP alone, and the block they have encrypted. -/

open Sys2Proof.Machine Sys2Proof.Safety Sys2Proof.Laws Sys2Proof.Proofs.Functions Sys2Proof.Proofs.SingleFunctions

variable {p : Primitive} {s : State} {c : Context} {i : Instr} {temp e : Block} {r lo hi : Nat} {k : Byte}

/-- The request of an output that is computed from TEMP alone (42_temp_and_transform.md R132). -/
def outRequest (c : Context) (temp : Block) (r : Nat) (k : Byte) : Request :=
  ⟨c.k, bxor (rotl (bxor temp c.opc) r) (cbyte k)⟩

/-- It is the request of the pipeline run with input TEMP and zero. -/
theorem pipe_request : (⟨c.k, pipeInput c.opc temp zeroBlock r k⟩ : Request) = outRequest c temp r k := by
  rw [outRequest, pipeInput_zeroBlock]

theorem pipe_out_block (h : cipherAnswer p (outRequest c temp r k) = .block e) :
    pipe p c temp zeroBlock r k = ⟨[outRequest c temp r k], .done (bxor e c.opc)⟩ :=
  pipelineIsTheTemplate p c temp e r k h

theorem pipe_out_cipherError (h : cipherAnswer p (outRequest c temp r k) = .cipherError) :
    pipe p c temp zeroBlock r k = ⟨[outRequest c temp r k], .raised .errCipher⟩ := by
  rw [← pipe_request] at h ⊢
  exact pipe_cipherError h

/-- A pipeline run with input TEMP and zero that is done: its request was answered. -/
theorem pipe_out_done {out : Block} (h : (pipe p c temp zeroBlock r k).ending = .done out) :
    ∃ e, cipherAnswer p (outRequest c temp r k) = .block e ∧ out = bxor e c.opc := by
  rw [← pipe_request]
  exact pipe_done h

/-- The rule of the rows that select TEMP and zero: they differ in the rotation, the constant and the slice. -/
theorem tempFunctionRule (hmem : i ∈ fCommands)
    (hrow : ∀ p c, selectedFunction p c i.opcode.fsel = singleFunction p c ⟨.temp, .zero, r, k, lo, hi⟩) :
    SingleFunctionRule i (fun c temp => bxor (rotl (bxor temp c.opc) r) (cbyte k))
      (fun c e => 0x00#8 :: BitVec.ofNat 8 (hi - lo) :: (slice lo hi (bxor e c.opc)).bytes) := by
  have hinput : rowInput ⟨.temp, .zero, r, k, lo, hi⟩ = fun c temp => bxor (rotl (bxor temp c.opc) r) (cbyte k) :=
    funext₂ fun c temp => pipeInput_zeroBlock c.opc temp r k
  have rule := singleFunctionRule hmem hrow
  rwa [hinput] at rule

/-- Settles O35: the row of `F2`, which takes the second half of OUT2. -/
theorem f2RespondsWithRes : Obligations.F2RespondsWithRes :=
  ⟨formatN rfl, by simpa only [rotl_zero] using tempFunctionRule (i := .f2) (by decide) selectedFunction_f2⟩

/-- Settles O36: the row of `F3`, which takes the whole of OUT3. -/
theorem f3RespondsWithCk : Obligations.F3RespondsWithCk :=
  ⟨formatN rfl, by simpa only [slice_all] using tempFunctionRule (i := .f3) (by decide) selectedFunction_f3⟩

/-- Settles O37: the row of `F4`, which takes the whole of OUT4. -/
theorem f4RespondsWithIk : Obligations.F4RespondsWithIk :=
  ⟨formatN rfl, by simpa only [slice_all] using tempFunctionRule (i := .f4) (by decide) selectedFunction_f4⟩

/-- Settles O38: the row of `F5`, which takes the first six bytes of OUT2. -/
theorem f5RespondsWithAk : Obligations.F5RespondsWithAk :=
  ⟨formatN rfl, by simpa only [rotl_zero] using tempFunctionRule (i := .f5) (by decide) selectedFunction_f5⟩

end Sys2Proof.Proofs.TempFunctions

namespace Sys2Proof.Proofs.CombinedFunction

/-! R167, R168: the combined function by the answers to its four requests, and its fields against those of the single
functions. -/

open Sys2Proof.Machine Sys2Proof.Safety Sys2Proof.Laws Sys2Proof.Proofs.OpcDerivation Sys2Proof.Proofs.SingleFunctions
  Sys2Proof.Proofs.TempFunctions

variable {p : Primitive} {s t : State} {c : Context} {i : Instr} {temp e2 e3 e4 : Block} {fields : List (List Byte)}
  {f : Frame}

/-! ### The combined function by the answers to its requests (R167) -/

/-- The requests of OUT2, OUT3 and OUT4 (R160 to R162). -/
def out2Request (c : Context) (temp : Block) : Request := outRequest c temp 0 0x01#8
def out3Request (c : Context) (temp : Block) : Request := outRequest c temp 4 0x02#8
def out4Request (c : Context) (temp : Block) : Request := outRequest c temp 8 0x04#8

/-- OUT2 is computed without a rotation. -/
theorem out2Request_eq : out2Request c temp = ⟨c.k, bxor (bxor temp c.opc) (cbyte 0x01#8)⟩ := by
  rw [out2Request, outRequest, rotl_zero]

/-- RES, CK, IK and AK of the three answers. -/
def combinedFields (c : Context) (e2 e3 e4 : Block) : List (List Byte) :=
  [(slice 8 16 (bxor e2 c.opc)).bytes, (bxor e3 c.opc).bytes, (bxor e4 c.opc).bytes,
    (slice 0 6 (bxor e2 c.opc)).bytes]

theorem okFrame_combinedFields (c : Context) (e2 e3 e4 : Block) :
    okFrame (combinedFields c e2 e3 e4) =
      0x00#8 :: 0x08#8 :: (slice 8 16 (bxor e2 c.opc)).bytes ++ 0x10#8 :: (bxor e3 c.opc).bytes ++
        0x10#8 :: (bxor e4 c.opc).bytes ++ 0x06#8 :: (slice 0 6 (bxor e2 c.opc)).bytes := by
  simp [okFrame, combinedFields, field_bytes, Status.byte]

theorem combinedFunction_temp_cipherError (h : cipherAnswer p (tempRequest c) = .cipherError) :
    combinedFunction p c = ⟨[tempRequest c], .raised .errCipher⟩ := by
  rw [combinedFunction, computeTemp_cipherError h, andThen_raised rfl]

section
variable (htemp : cipherAnswer p (tempRequest c) = .block temp)
include htemp

theorem combinedFunction_out2_cipherError (h2 : cipherAnswer p (out2Request c temp) = .cipherError) :
    combinedFunction p c = ⟨[tempRequest c, out2Request c temp], .raised .errCipher⟩ := by
  rw [combinedFunction, computeTemp_block htemp, andThen_done rfl, pipe_out_cipherError h2, andThen_raised rfl]
  rfl

variable (h2 : cipherAnswer p (out2Request c temp) = .block e2)
include h2

theorem combinedFunction_out3_cipherError (h3 : cipherAnswer p (out3Request c temp) = .cipherError) :
    combinedFunction p c =
      ⟨[tempRequest c, out2Request c temp, out3Request c temp], .raised .errCipher⟩ := by
  rw [combinedFunction, computeTemp_block htemp, andThen_done rfl, pipe_out_block h2, andThen_done rfl,
    pipe_out_cipherError h3, andThen_raised rfl]
  rfl

variable (h3 : cipherAnswer p (out3Request c temp) = .block e3)
include h3

theorem combinedFunction_out4_cipherError (h4 : cipherAnswer p (out4Request c temp) = .cipherError) :
    combinedFunction p c =
      ⟨[tempRequest c, out2Request c temp, out3Request c temp, out4Request c temp], .raised .errCipher⟩ := by
  rw [combinedFunction, computeTemp_block htemp, andThen_done rfl, pipe_out_block h2, andThen_done rfl,
    pipe_out_block h3, andThen_done rfl, pipe_out_cipherError h4, andThen_raised rfl]
  rfl

theorem combinedFunction_block (h4 : cipherAnswer p (out4Request c temp) = .block e4) :
    combinedFunction p c =
      ⟨[tempRequest c, out2Request c temp, out3Request c temp, out4Request c temp],
        .done (combinedFields c e2 e3 e4)⟩ := by
  rw [combinedFunction, computeTemp_block htemp, andThen_done rfl, pipe_out_block h2, andThen_done rfl,
    pipe_out_block h3, andThen_done rfl, pipe_out_block h4, andThen_done rfl]
  rfl

end

/-- Settles O40: the answers to the four requests, in order, decide the run of the combined function, and the run
decides the whole next state. -/
theorem f2345RespondsWithAllFour : Obligations.F2345RespondsWithAllFour := by
  have hmem : Instr.f2345 ∈ fCommands := by decide
  refine ⟨formatN rfl, fun s => ⟨exec_fCommand_noContext hmem, fun c hc =>
    ⟨fun h => exec_fCommand_cipherError hmem hc (combinedFunction_temp_cipherError h), fun temp htemp => ?_⟩⟩⟩
  simp only [← out2Request_eq, ← okFrame_combinedFields]
  refine ⟨fun h => ?_, fun e2 h2 => ⟨fun h => ?_, fun e3 h3 => ⟨fun h => ?_, fun e4 h4 => ?_⟩⟩⟩
  · exact exec_fCommand_cipherError hmem hc (combinedFunction_out2_cipherError htemp h)
  · exact exec_fCommand_cipherError hmem hc (combinedFunction_out3_cipherError htemp h2 h)
  · exact exec_fCommand_cipherError hmem hc (combinedFunction_out4_cipherError htemp h2 h3 h)
  · exact exec_fCommand_done hmem hc (combinedFunction_block htemp h2 h3 h4)

/-! ### The fields the host reads (R78) -/

theorem resultLens_le (o : Opcode) : ∀ n ∈ o.resultLens, n ≤ 255 := by cases o <;> decide

/-- Fields of the lengths of an opcode's row are read back from their `OK` response. -/
theorem readResponse_okFrame {o : Opcode} (h : fields.map List.length = o.resultLens) :
    readResponse o.resultLens.length (okFrame fields) = some (.ok, fields) := by
  have hle : ∀ d ∈ fields, d.length ≤ 255 := fun d hd => resultLens_le o _ (h ▸ List.mem_map_of_mem hd)
  have hstatus : Status.all.find? (fun e => e.byte == Status.ok.byte) = some .ok := by decide
  rw [← h, List.length_map]
  simp only [okFrame, readResponse, hstatus, splitFields_flatMap_field hle, Option.map_some]

/-- An error response is read as no other status. -/
theorem readResponse_errorFrame (n : Nat) {e : Status} (he : e ≠ .ok) :
    readResponse n (errorFrame e) = some (e, []) := by
  cases e with
  | ok => exact absurd rfl he
  | errLength | errCipher | errOpcode | errFrame | errNoContext => rfl

/-- The fields a host reads from the `OK` response to an f-command are those its function gave on the context. -/
theorem selectedFunction_done_of_readResponse (hmem : i ∈ fCommands) (h : exec i s = .next t)
    (hr : t.responsePort = s.responsePort ++ [f])
    (hread : readResponse i.opcode.resultLens.length f = some (.ok, fields)) :
    ∃ c, s.slot = .held c ∧ (selectedFunction s.primitive c i.opcode.fsel).ending = .done fields := by
  obtain ⟨-, -, -, ⟨e, he, -, hok⟩ | ⟨e, hne, -, -, herr⟩⟩ := exec_next h
  · obtain rfl : f = okFrame e.fields := by simpa [hr] using hok
    rw [readResponse_okFrame (done_fields he)] at hread
    cases hread
    rw [commandRun_fCommand hmem] at he
    obtain ⟨c, hc, -, hdone, -⟩ := functionCommand_done he
    exact ⟨c, hc, hdone⟩
  · obtain rfl : f = errorFrame e := by simpa [hr] using herr
    rw [readResponse_errorFrame _ hne] at hread
    cases hread
    exact absurd rfl hne

/-! ### Combined against single functions (R168) -/

/-- A combined function that is done: its four requests were answered. -/
theorem combinedFunction_done (h : (combinedFunction p c).ending = .done fields) :
    ∃ temp e2 e3 e4, cipherAnswer p (tempRequest c) = .block temp ∧
      cipherAnswer p (out2Request c temp) = .block e2 ∧ cipherAnswer p (out3Request c temp) = .block e3 ∧
      cipherAnswer p (out4Request c temp) = .block e4 ∧ fields = combinedFields c e2 e3 e4 := by
  simp only [combinedFunction, andThen_ending_done, value_ending] at h
  obtain ⟨temp, htemp, out2, hout2, out3, hout3, out4, hout4, h⟩ := h
  cases h
  obtain ⟨e2, h2, rfl⟩ := pipe_out_done hout2
  obtain ⟨e3, h3, rfl⟩ := pipe_out_done hout3
  obtain ⟨e4, h4, rfl⟩ := pipe_out_done hout4
  exact ⟨temp, e2, e3, e4, encrypt_done htemp, h2, h3, h4, rfl⟩

/-- What a command that follows the rule of the single functions does when both requests are answered. -/
theorem appends_of_singleFunctionRule {n : Nat} {input : Context → Block → Block} {x : ByteString n} {e : Block}
    {output : Context → Block → Frame} (rule : SingleFunctionRule i input output) (hc : s.slot = .held c)
    (htemp : cipherAnswer s.primitive (tempRequest c) = .block temp)
    (h : cipherAnswer s.primitive ⟨c.k, input c temp⟩ = .block e)
    (hout : output c e = 0x00#8 :: BitVec.ofNat 8 n :: x.bytes) :
    ∃ t, exec i s = .next t ∧ Appends s t [okFrame [x.bytes]] [tempRequest c, ⟨c.k, input c temp⟩] := by
  obtain ⟨-, held⟩ := rule s
  obtain ⟨-, tempAnswered⟩ := held c hc
  obtain ⟨-, answered⟩ := tempAnswered temp htemp
  exact ⟨_, answered e h, by rw [okFrame_bytes, hout]; exact ⟨rfl, rfl⟩⟩

/-- Settles O41: the four requests of the combined function were answered; the single functions ask for the same
blocks, so that each gives its field. -/
theorem combinedEqualsSingleFunctions : Obligations.CombinedEqualsSingleFunctions := by
  intro s t f res ck ik ak h hr hread
  have hmem : Instr.f2345 ∈ fCommands := by decide
  obtain ⟨c, hc, hdone⟩ := selectedFunction_done_of_readResponse hmem h hr hread
  obtain ⟨temp, e2, e3, e4, htemp, h2, h3, h4, hfields⟩ := combinedFunction_done hdone
  cases hfields
  cases h.symm.trans (exec_fCommand_done hmem hc (combinedFunction_block htemp h2 h3 h4))
  obtain ⟨-, rule2⟩ := f2RespondsWithRes
  obtain ⟨-, rule3⟩ := f3RespondsWithCk
  obtain ⟨-, rule4⟩ := f4RespondsWithIk
  obtain ⟨-, rule5⟩ := f5RespondsWithAk
  have h2' := out2Request_eq ▸ h2
  obtain ⟨t2, exec2, app2⟩ := appends_of_singleFunctionRule rule2 hc htemp h2' rfl
  obtain ⟨t3, exec3, app3⟩ := appends_of_singleFunctionRule rule3 hc htemp h3 rfl
  obtain ⟨t4, exec4, app4⟩ := appends_of_singleFunctionRule rule4 hc htemp h4 rfl
  obtain ⟨t5, exec5, app5⟩ := appends_of_singleFunctionRule rule5 hc htemp h2' rfl
  exact ⟨t2, t3, t4, t5, _, _, _, _, _, exec2, app2, exec3, app3, exec4, app4, exec5, app5, rfl, rfl, rfl⟩

end Sys2Proof.Proofs.CombinedFunction

/-! ## Proof about F5STAR (45_f5star.md): a row of TEMP and zero like those of F2 to F5 -/

namespace Sys2Proof.Proofs.Resynchronization

/-! R180, R181: OUT5 is the output of TEMP with rotation 12 and constant 8; AK* is its first six bytes. -/

open Sys2Proof.Machine Sys2Proof.Safety Sys2Proof.Laws Sys2Proof.Proofs.SingleFunctions Sys2Proof.Proofs.TempFunctions

/-- Settles O39: the row of `F5STAR`, which takes the first six bytes of OUT5. -/
theorem f5starRespondsWithAkStar : Obligations.F5starRespondsWithAkStar :=
  ⟨formatN rfl, tempFunctionRule (i := .f5star) (by decide) selectedFunction_f5star⟩

end Sys2Proof.Proofs.Resynchronization

/-! ## Proofs about the context commands (46_context_commands.md): what each does, then the obligations -/

namespace Sys2Proof.Proofs.ContextCommands

/-! R190 to R194: the frame of the two commands that create a context; the whole next state of the context commands. -/

open Sys2Proof.Machine Sys2Proof.Safety Sys2Proof.Laws Sys2Proof.Proofs.OpcDerivation
  Sys2Proof.Proofs.SingleFunctions

variable {s : State} {c : Context}

/-- The frame of a command whose operands are a key, a block, RAND, SQN and AMF. -/
theorem encode_contextOperands {i : Instr} {k b rand : Block} {sqn : ByteString 6} {amf : ByteString 2}
    (h : i.operands = [k.bytes, b.bytes, rand.bytes, sqn.bytes, amf.bytes]) :
    encode i = i.opcode.byte :: 0x10#8 :: k.bytes ++ 0x10#8 :: b.bytes ++ 0x10#8 :: rand.bytes ++
      0x06#8 :: sqn.bytes ++ 0x02#8 :: amf.bytes := by
  simp [encode, h, field_bytes]

/-- The frame of a command with one operand. -/
theorem encode_oneOperand {i : Instr} {n : Nat} {x : ByteString n} (h : i.operands = [x.bytes]) :
    encode i = i.opcode.byte :: BitVec.ofNat 8 n :: x.bytes := by
  simp [encode, h, field_bytes]

/-- `NEW_CTX_OP` of a request that is refused keeps the slot it found. -/
theorem exec_newCtxOp_cipherError {k op : Block} (rand : Block) (sqn : ByteString 6) (amf : ByteString 2)
    (h : cipherAnswer s.primitive ⟨k, op⟩ = .cipherError) :
    exec (.newCtxOp k.bytes op.bytes rand.bytes sqn.bytes amf.bytes) s = .next (emit s [0x02#8] [⟨k, op⟩]) := by
  rw [exec_eq_finish, commandRun]
  simp only [operand_bytes, andThen_value, computeOpc_cipherError h]
  rfl

theorem exec_setSqn_noContext (sqn : ByteString 6) (hs : s.slot = .noContext) :
    exec (.setSqn sqn.bytes) s = .next (emit s [0x05#8] []) := by
  rw [exec_eq_finish, commandRun, operand_bytes, andThen_value, needContext_noContext hs]
  rfl

theorem exec_setSqn_held (sqn : ByteString 6) (hs : s.slot = .held c) :
    exec (.setSqn sqn.bytes) s = .next { emit s [0x00#8] [] with slot := .held { c with sqn := sqn } } := by
  rw [exec_eq_finish, commandRun, operand_bytes, andThen_value, needContext_held hs, andThen_value]
  rfl

theorem exec_setAmf_noContext (amf : ByteString 2) (hs : s.slot = .noContext) :
    exec (.setAmf amf.bytes) s = .next (emit s [0x05#8] []) := by
  rw [exec_eq_finish, commandRun, operand_bytes, andThen_value, needContext_noContext hs]
  rfl

theorem exec_setAmf_held (amf : ByteString 2) (hs : s.slot = .held c) :
    exec (.setAmf amf.bytes) s = .next { emit s [0x00#8] [] with slot := .held { c with amf := amf } } := by
  rw [exec_eq_finish, commandRun, operand_bytes, andThen_value, needContext_held hs, andThen_value]
  rfl

theorem exec_discard (s : State) : exec .discard s = .next { emit s [0x00#8] [] with slot := .noContext } := by
  rw [exec_eq_finish, commandRun, finish_done (value_ending _)]
  rfl

/-- Settles O28: the run makes the one request of `ComputeOPc`; its answer decides whether the five registers are
loaded or the old slot is kept. -/
theorem newCtxOpDerivesOpcAndLoads : Obligations.NewCtxOpDerivesOpcAndLoads :=
  ⟨formatV .newCtxOp, fun _ _ _ _ _ => encode_contextOperands rfl, fun _ _ rand sqn amf _ =>
    ⟨exec_newCtxOp_cipherError rand sqn amf, fun _ answered => exec_newCtxOp_block rand sqn amf answered⟩⟩

/-- Settles O29: no check and no request stands between the operands and the load. -/
theorem newCtxOpcLoadsAsGiven : Obligations.NewCtxOpcLoadsAsGiven :=
  ⟨formatV .newCtxOpc, fun _ _ _ _ _ => encode_contextOperands rfl, exec_newCtxOpc⟩

/-- Settles O30, by the slot the context check finds. -/
theorem setSqnWritesSqnOnly : Obligations.SetSqnWritesSqnOnly :=
  ⟨formatV .setSqn, fun _ => encode_oneOperand rfl, fun sqn _ =>
    ⟨exec_setSqn_noContext sqn, fun _ held => exec_setSqn_held sqn held⟩⟩

/-- Settles O31, by the slot the context check finds. -/
theorem setAmfWritesAmfOnly : Obligations.SetAmfWritesAmfOnly :=
  ⟨formatV .setAmf, fun _ => encode_oneOperand rfl, fun amf _ =>
    ⟨exec_setAmf_noContext amf, fun _ held => exec_setAmf_held amf held⟩⟩

/-- Settles O32: the slot `DISCARD` leaves is the one of the reset state, and without a context the one it found. -/
theorem discardEndsTheContext : Obligations.DiscardEndsTheContext := by
  refine ⟨formatN rfl, exec_discard, fun s hs => ?_⟩
  have unchanged : { emit s [0x00#8] [] with slot := .noContext } = emit s [0x00#8] [] := by rw [← hs]; rfl
  rw [exec_discard, unchanged]

end Sys2Proof.Proofs.ContextCommands

namespace Sys2Proof.Proofs.Lifecycle

/-! R195: `CTX_VALID` after a command that is done, after an error, and after a reset. -/

open Sys2Proof.Machine Sys2Proof.Safety Sys2Proof.Laws Sys2Proof.Proofs.Answers Sys2Proof.Proofs.Registers

variable {s t : State} {c : Context} {i : Instr} {e : Effect}

theorem ctxValid_of_held (h : s.slot = .held c) : ctxValid s = true := by simp [ctxValid, h, heldContext]

theorem ctxValid_of_noContext (h : s.slot = .noContext) : ctxValid s = false := by simp [ctxValid, h, heldContext]

theorem ctxValid_congr (h : t.slot = s.slot) : ctxValid t = ctxValid s := by rw [ctxValid, h, ctxValid]

/-- A `NEW_CTX_OP` or `NEW_CTX_OPC` that is done leaves a context. -/
theorem newContext_done (hi : i.opcode = .newCtxOp ∨ i.opcode = .newCtxOpc)
    (h : (commandRun i s).ending = .done e) : ∃ c, e.slot = .held c := by
  cases i
  case newCtxOp =>
    simp only [commandRun, andThen_ending_done, value_ending] at h
    obtain ⟨_, _, _, _, _, _, _, _, _, _, _, _, h⟩ := h
    cases h
    exact ⟨_, rfl⟩
  case newCtxOpc =>
    simp only [commandRun, andThen_ending_done, value_ending] at h
    obtain ⟨_, _, _, _, _, _, _, _, _, _, h⟩ := h
    cases h
    exact ⟨_, rfl⟩
  all_goals simp [Instr.opcode] at hi

theorem discard_done (hi : i.opcode = .discard) (h : (commandRun i s).ending = .done e) : e.slot = .noContext := by
  cases i
  case discard => cases h; rfl
  all_goals cases hi

/-- Every other command that is done leaves `CTX_VALID`: it writes one register of a held context, or nothing. -/
theorem otherCommand_done (hnew : ¬ (i.opcode = .newCtxOp ∨ i.opcode = .newCtxOpc))
    (hdiscard : i.opcode ≠ .discard) (h : (commandRun i s).ending = .done e) (ht : t.slot = e.slot) :
    ctxValid t = ctxValid s := by
  obtain (hi | hi | hi) | ⟨l, rfl⟩ | ⟨l, rfl⟩ | hi := writer_cases i
  · exact absurd (.inl hi) hnew
  · exact absurd (.inr hi) hnew
  · exact absurd hi hdiscard
  · obtain ⟨_, _, -, hs, he⟩ := setSqn_done h
    rw [ctxValid_of_held (ht.trans he), ctxValid_of_held hs]
  · obtain ⟨_, _, -, hs, he⟩ := setAmf_done h
    rw [ctxValid_of_held (ht.trans he), ctxValid_of_held hs]
  · exact ctxValid_congr (ht.trans (done_slot hi h))

/-- An event that is no frame is a reset, between commands or during one. -/
theorem takeEvent_reset {ev : HostEvent} (hev : ∀ f, ev ≠ .frame f) (h : takeEvent ev s = .next t) :
    t.slot = .noContext := by
  cases ev with
  | frame f => exact absurd rfl (hev f)
  | reset => cases h; rfl
  | frameThenReset f n => cases h; rfl

/-- A command that ends: an `OK` response says that its run is done, any other that nothing was written. -/
theorem exec_ctxValid {r : Frame} (h : exec i s = .next t) (hr : t.responsePort = s.responsePort ++ [r]) :
    ctxValid t =
      if r.head? = some 0x00#8 ∧ (i.opcode = .newCtxOp ∨ i.opcode = .newCtxOpc) then true
      else if r.head? = some 0x00#8 ∧ i.opcode = .discard then false
      else ctxValid s := by
  obtain ⟨-, -, -, ⟨e, he, hslot, hresp⟩ | ⟨e, hne, -, hslot, hresp⟩⟩ := exec_next h
  · obtain rfl : r = okFrame e.fields := by simpa [hr] using hresp
    simp only [head_okFrame, true_and]
    split_ifs with hnew hdiscard
    · obtain ⟨c, hc⟩ := newContext_done hnew he
      exact ctxValid_of_held (hslot.trans hc)
    · exact ctxValid_of_noContext (hslot.trans (discard_done hdiscard he))
    · exact otherCommand_done hnew hdiscard he hslot
  · obtain rfl : r = errorFrame e := by simpa [hr] using hresp
    simp only [head_errorFrame, Option.some.injEq, byte_ne_zero hne, false_and, if_false]
    exact ctxValid_congr hslot

/-- Settles O44: a command by how it ends, a frame that does not decode by its error, a reset by its event. -/
theorem contextLifecycle : Obligations.ContextLifecycle := by
  refine ⟨fun i s t r => exec_ctxValid, fun f e s t hdec h => ?_, fun s t ev rest hport hev h => ?_⟩
  · rw [runFrame, hdec] at h
    cases h
    exact ctxValid_congr rfl
  · simp only [step, hport] at h
    exact ctxValid_of_noContext (takeEvent_reset hev h)

end Sys2Proof.Proofs.Lifecycle

/-! ## Proofs about the errors (60_exceptions.md): which frames the decoder refuses, what an error leaves, the context
check -/

namespace Sys2Proof.Proofs.DecoderErrors

/-! R212, R215: the frames that decode to `ERR_FRAME` and to `ERR_LENGTH`. -/

open Sys2Proof.Machine Sys2Proof.Safety Sys2Proof.Laws Sys2Proof.Proofs.Decoder Sys2Proof.Proofs.CheckOrder
  Sys2Proof.Proofs.SingleFunctions

variable {i : Instr}

/-- Where the walk of the fields fails there are no fields laid one after another. -/
theorem not_exists_fields_of_splitFields_eq_none {n : Nat} {l : List Byte} (h : splitFields n l = none) :
    ¬ ∃ fs : List (List Byte), fs.length = n ∧ (∀ d ∈ fs, d.length ≤ 255) ∧ l = fs.flatMap field := by
  rintro ⟨fs, rfl, hle, rfl⟩
  cases h.symm.trans (splitFields_flatMap_field hle)

/-- Settles O11: of all the decoder can answer, `ERR_FRAME` is the empty frame's and that of a walk that fails. -/
theorem frameErrorExactlyForBrokenStructure : Obligations.FrameErrorExactlyForBrokenStructure := by
  intro f
  constructor
  · intro h
    obtain ⟨rfl, -⟩ | ⟨-, -, -, -, hd⟩ | ⟨o, rest, rfl, walk, -⟩ | ⟨i, -, -, hd⟩ := decode_cases f
    · exact .inl rfl
    · cases hd.symm.trans h
    · exact .inr ⟨o, rest, rfl, not_exists_fields_of_splitFields_eq_none walk⟩
    · cases hw : i.wellFormed <;> rw [hw] at hd <;> cases hd.symm.trans h
  · rintro (rfl | ⟨o, rest, rfl, hbroken⟩)
    · rfl
    · exact decode_broken hbroken

/-- `ERR_LENGTH` is the error of the frame of a command that is not well formed. -/
theorem decode_eq_errLength {f : Frame} :
    decode f = .error .errLength ↔
      ∃ i : Instr, f = encode i ∧ (∀ d ∈ i.operands, d.length ≤ 255) ∧
        i.operands.map List.length ≠ i.opcode.operandLens := by
  constructor
  · intro h
    obtain ⟨-, hd⟩ | ⟨-, -, -, -, hd⟩ | ⟨-, -, -, -, hd⟩ | ⟨i, hf, hle, hd⟩ := decode_cases f
    · cases hd.symm.trans h
    · cases hd.symm.trans h
    · cases hd.symm.trans h
    · refine ⟨i, hf, hle, fun hlens => ?_⟩
      rw [if_pos ((wellFormed_iff i).2 hlens)] at hd
      cases hd.symm.trans h
  · rintro ⟨i, rfl, hle, hlens⟩
    rw [decode_encode hle, if_neg (mt (wellFormed_iff i).1 hlens)]

/-- The opcode of a command without operands alone is that command; with bytes after it the structure is broken. -/
theorem decode_formatN_ne_errLength (h : i.operands = []) (tail : Frame) :
    decode (i.opcode.byte :: tail) ≠ .error .errLength := by
  obtain ⟨-, hdec, hleft⟩ := formatN h
  cases tail with
  | nil => simp [hdec]
  | cons x rest => simp [hleft]

/-- Settles O12: the frames by `decode_eq_errLength`, the step by what it does with a frame that does not decode. -/
theorem lengthErrorExactlyForWrongOperands : Obligations.LengthErrorExactlyForWrongOperands :=
  ⟨fun _ => decode_eq_errLength, fun _ _ _ hport hdec => step_of_decode_error hport hdec,
    fun _ h tail => decode_formatN_ne_errLength h tail⟩

end Sys2Proof.Proofs.DecoderErrors

namespace Sys2Proof.Proofs.ErrorFrame

/-! R218, R219, R222: what a frame that ends in an error leaves, and that an idle core holds its state. -/

open Sys2Proof.Machine Sys2Proof.Safety Sys2Proof.Laws Sys2Proof.Proofs.NoHiddenState

variable {s t : State} {f : Frame} {i : Instr} {e : Status}

/-- Settles O4, by what a step can answer. -/
theorem idleCoreHoldsItsState : Obligations.IdleCoreHoldsItsState := by
  intro s hport
  obtain ⟨-, hstep⟩ | ⟨_, _, hcons, -⟩ := step_cases s
  · exact hstep
  · cases hport.symm.trans hcons

/-- The requests made before an error (60_exceptions.md R218): none, but for `ERR_CIPHER`, where they are answered
ones and then the one that failed. -/
def RequestsBeforeError (p : Primitive) (e : Status) (qs : List Request) : Prop :=
  (e ≠ .errCipher ∧ qs = []) ∨
  (e = .errCipher ∧ ∃ answered failed, qs = answered ++ [failed] ∧ cipherAnswer p failed = .cipherError ∧
    ∀ q ∈ answered, ∃ b, cipherAnswer p q = .block b)

/-- The requests of a command that raises are those its error allows. -/
theorem commandRun_raised_requests (h : (commandRun i s).ending = .raised e) :
    RequestsBeforeError s.primitive e (commandRun i s).issued := by
  cases commandRun_shape i s with
  | refused e' he h' issued =>
    cases h'.symm.trans h
    exact .inl ⟨by rintro rfl; simp at he, issued⟩
  | ran hr =>
    cases hr with
    | done _ h' _ => cases h'.symm.trans h
    | failed answered failed h' issued last hanswered =>
      cases h'.symm.trans h
      exact .inr ⟨rfl, answered, failed, issued, last, hanswered⟩
    | stuck _ _ h' _ _ _ => cases h'.symm.trans h

theorem decode_error_ne_errCipher (h : decode f = .error e) : e ≠ .errCipher := by
  rintro rfl
  obtain ⟨-, hd⟩ | ⟨-, -, -, -, hd⟩ | ⟨-, -, -, -, hd⟩ | ⟨i, -, -, hd⟩ := decode_cases f
  · cases hd.symm.trans h
  · cases hd.symm.trans h
  · cases hd.symm.trans h
  · cases hw : i.wellFormed <;> rw [hw] at hd <;> cases hd.symm.trans h

/-- A frame whose response is not `OK` was ended by `raiseStatus`, of the decoder's error or of its command's. -/
theorem runFrame_error {r : Frame} (h : runFrame f s = .next t) (hr : t.responsePort = s.responsePort ++ [r])
    (hne : r.head? ≠ some 0x00#8) :
    ∃ e qs, e ≠ .ok ∧ t = raiseStatus s qs e ∧ r = errorFrame e ∧ RequestsBeforeError s.primitive e qs := by
  obtain ⟨e, hok, hdec, hrun⟩ | ⟨i, -, hrun⟩ := runFrame_cases f s <;> rw [hrun] at h
  · cases h
    exact ⟨e, [], hok, rfl, by simpa using hr.symm, .inl ⟨decode_error_ne_errCipher hdec, rfl⟩⟩
  obtain ⟨e, -, hn⟩ | ⟨e, hok, hraised, hn⟩ | ⟨-, hn⟩ := exec_cases i s <;> rw [hn] at h <;> cases h
  · obtain rfl : r = okFrame e.fields := by simpa using hr.symm
    exact absurd (head_okFrame e.fields) hne
  · exact ⟨e, _, hok, rfl, by simpa using hr.symm, commandRun_raised_requests hraised⟩

/-- Settles O19: `raiseStatus` writes no register, and the status tells which requests were made. -/
theorem errorsChangeNothing : Obligations.ErrorsChangeNothing := by
  intro f s t r h hr hne
  obtain ⟨e, qs, hok, rfl, rfl, hqs⟩ := runFrame_error h hr hne
  refine ⟨⟨rfl, rfl, rfl⟩, ?_⟩
  obtain ⟨hcipher, rfl⟩ | ⟨rfl, answered, failed, rfl, hlast, hanswered⟩ := hqs
  · exact .inl ⟨e, hok, hcipher, rfl, by simp⟩
  · exact .inr ⟨rfl, answered, failed, by simp, hlast, hanswered⟩

/-- Settles O20: `raiseStatus` leaves the core, and equal cores run a frame alike. -/
theorem errorLeavesNextFrameUnaffected : Obligations.ErrorLeavesNextFrameUnaffected := by
  intro s t f g r h hr hne
  obtain ⟨e, qs, -, rfl, -, -⟩ := runFrame_error h hr hne
  exact runFrame_sameRun (s := s) (t := raiseStatus s qs e) ⟨rfl, rfl, rfl⟩ g

end Sys2Proof.Proofs.ErrorFrame

namespace Sys2Proof.Proofs.ContextCheck

/-! R216: the commands that raise `ERR_NO_CONTEXT`, and the states they raise it in. -/

open Sys2Proof.Machine Sys2Proof.Safety Sys2Proof.Laws Sys2Proof.Proofs.CheckOrder

variable {s : State} {i : Instr}

/-- An operand of another length is `ERR_LENGTH`, whether it is this one or a later one. -/
theorem operand_andThen_illFormed {α : Type} {n : Nat} {l : List Byte} {f : ByteString n → Run α}
    (h : l.length = n → ∀ x, f x = raise .errLength) : andThen (operand n l) f = raise .errLength := by
  by_cases hl : l.length = n
  · rw [operand_right hl, andThen_value, h hl]
  · rw [operand_wrong hl, andThen_raise]

/-- A command that is not well formed raises `ERR_LENGTH` whatever the state. -/
theorem commandRun_of_illFormed (hw : i.wellFormed = false) (s : State) : commandRun i s = raise .errLength := by
  have wrong {x : Run Effect} (hlens : i.operands.map List.length = i.opcode.operandLens) :
      x = raise .errLength := by
    cases hw.symm.trans ((wellFormed_iff i).2 hlens)
  cases i
  case computeOpc =>
    exact operand_andThen_illFormed fun hop _ => operand_andThen_illFormed fun hk _ =>
      wrong (by simp [Instr.operands, hop, hk, Instr.opcode, Opcode.operandLens])
  case newCtxOp =>
    exact operand_andThen_illFormed fun hk _ => operand_andThen_illFormed fun hop _ =>
      operand_andThen_illFormed fun hrand _ => operand_andThen_illFormed fun hsqn _ =>
      operand_andThen_illFormed fun hamf _ =>
      wrong (by simp [Instr.operands, hk, hop, hrand, hsqn, hamf, Instr.opcode, Opcode.operandLens])
  case newCtxOpc =>
    exact operand_andThen_illFormed fun hk _ => operand_andThen_illFormed fun hopc _ =>
      operand_andThen_illFormed fun hrand _ => operand_andThen_illFormed fun hsqn _ =>
      operand_andThen_illFormed fun hamf _ =>
      wrong (by simp [Instr.operands, hk, hopc, hrand, hsqn, hamf, Instr.opcode, Opcode.operandLens])
  case setSqn =>
    exact operand_andThen_illFormed fun hsqn _ =>
      wrong (by simp [Instr.operands, hsqn, Instr.opcode, Opcode.operandLens])
  case setAmf =>
    exact operand_andThen_illFormed fun hamf _ =>
      wrong (by simp [Instr.operands, hamf, Instr.opcode, Opcode.operandLens])
  all_goals cases hw

/-- A run that only makes requests is not the refusal of the context check. -/
theorem requestsOnly_ne_raise_errNoContext {α : Type} {p : Primitive} {x : Run α} (hx : RequestsOnly p x) :
    x ≠ raise .errNoContext := by
  rintro rfl
  cases hx with
  | done _ h _ => cases h
  | failed _ _ h _ _ _ => cases h
  | stuck _ _ h _ _ _ => cases h

/-- A command raises `ERR_NO_CONTEXT` exactly when it is well formed, needs a context, and there is none. -/
theorem commandRun_errNoContext_iff :
    commandRun i s = raise .errNoContext ↔
      ctxValid s = false ∧ i.wellFormed = true ∧ i.opcode ∈ contextOpcodes := by
  cases hw : i.wellFormed with
  | false => simp [commandRun_of_illFormed hw, raise]
  | true =>
    obtain ⟨hctx, ⟨hv, hrun⟩ | ⟨hv, hrun⟩⟩ | ⟨hctx, hrun⟩ := commandRun_of_wellFormed hw s
    · simp [hv, hrun, hctx]
    · simp [hv, requestsOnly_ne_raise_errNoContext hrun]
    · simp [hctx, requestsOnly_ne_raise_errNoContext hrun]

/-- The well-formed commands that need a context. -/
theorem needsContext_iff :
    i.wellFormed = true ∧ i.opcode ∈ contextOpcodes ↔
      i ∈ fCommands ∨ (∃ q, q.length = 6 ∧ i = .setSqn q) ∨ ∃ a, a.length = 2 ∧ i = .setAmf a := by
  cases i <;> simp [Instr.wellFormed, Instr.opcode, contextOpcodes, fCommands, Config.sqnLen, Config.amfLen]

theorem errorFrame_eq_errNoContext {e : Status} (h : errorFrame e = [0x05#8]) : e = .errNoContext := by
  cases e <;> simp [errorFrame, Status.byte] at h ⊢

/-- The status 05 alone, with nothing else done, is the whole run of a command that raises `ERR_NO_CONTEXT`. -/
theorem exec_errNoContext_iff :
    exec i s = .next (emit s [0x05#8] []) ↔ commandRun i s = raise .errNoContext := by
  constructor
  · intro h
    obtain ⟨-, -, hissued, ⟨e, -, -, hr⟩ | ⟨e, -, hraised, -, hr⟩⟩ := exec_next h
    · have hok : [0x05#8] = okFrame e.fields := by simpa [emit] using hr
      simpa using congrArg List.head? hok
    · obtain rfl := errorFrame_eq_errNoContext (e := e) (by simpa [emit] using hr.symm)
      have hnone : (commandRun i s).issued = [] := by simpa [emit] using hissued
      exact congrArg₂ Run.mk hnone hraised
  · intro h
    rw [exec_eq_finish, h]
    rfl

/-- Settles O21, by the run the response stands for, and when a command has that run. -/
theorem noContextErrorExactly : Obligations.NoContextErrorExactly := by
  intro i s
  rw [exec_errNoContext_iff, commandRun_errNoContext_iff, needsContext_iff]

end Sys2Proof.Proofs.ContextCheck

/-! ## Proofs about reset (70_reset_and_hazards.md): an idle core, and a command that is abandoned -/

namespace Sys2Proof.Proofs.Reset

/-! R240, R241: the two reset events as steps, and which requests the binding has seen of an abandoned command. -/

open Sys2Proof.Machine Sys2Proof.Safety Sys2Proof.Laws Sys2Proof.Proofs.Answers Sys2Proof.Proofs.Lifecycle

variable {s : State} {f : Frame} {n : Nat} {rest : List HostEvent}

theorem step_of_reset (h : s.commandPort = .reset :: rest) :
    step s = .next (resetCore { s with commandPort := rest }) := by simp [step, h, takeEvent]

theorem step_of_frameThenReset (h : s.commandPort = .frameThenReset f n :: rest) :
    step s = .next (abandonCommand f n { s with commandPort := rest }) := by simp [step, h, takeEvent]

/-- An abandoned command has appended the first `n` of its requests, and no response. -/
theorem abandonCommand_appends (f : Frame) (n : Nat) (s : State) :
    Appends s (abandonCommand f n s) [] ((issuedBy s (runFrame f s)).take n) :=
  ⟨(List.append_nil _).symm, abandonCommand_bindingTrace s f n⟩

/-- Settles O2: the step is `resetCore`, which writes the slot alone. -/
theorem resetEventEndsContext : Obligations.ResetEventEndsContext := fun _ _ hport =>
  ⟨_, step_of_reset hport, rfl, ctxValid_of_noContext (resetCore_slot _), rfl, appends_refl _, rfl⟩

/-- Settles O3: the step is `abandonCommand`, and `issuedBy` reads the requests off either end of the command. -/
theorem resetDuringCommandAbandonsIt : Obligations.ResetDuringCommandAbandonsIt := by
  intro s f n rest hport running
  refine ⟨_, _, step_of_frameThenReset hport, rfl, rfl, rfl, abandonCommand_appends f n running, ?_, ?_⟩
  · intro u rs us hended happends
    rw [hended, issuedBy_next_of_appends happends]
  · intro us hstuck
    rw [hstuck, issuedBy]

end Sys2Proof.Proofs.Reset

/-! ## Proof about terms that no frame decodes to: the model's choice of log 13 -/

namespace Sys2Proof.Proofs.IllFormedTerms

/-! `exec` of a term with an operand of another length. -/

open Sys2Proof.Machine Sys2Proof.Safety Sys2Proof.Laws Sys2Proof.Proofs.ContextCheck

/-- Settles O60: the whole run of such a term is the `ERR_LENGTH` of its operands. -/
theorem illFormedOperandsAnswerErrLength : Obligations.IllFormedOperandsAnswerErrLength := by
  intro i s hw
  rw [exec_eq_finish, commandRun_of_illFormed hw, finish_raised (raise_ending _)]
  rfl

end Sys2Proof.Proofs.IllFormedTerms
